-- ==== Sys2Proof/Word.lean ====
section
/-! DEFINITION. The word the ROM stores and the external CPU's program counter (R5, R17). -/

namespace Sys2Proof

/-- `WORD_WIDTH` (R5). -/
def wordWidth : Nat := 24

/-- An InstructionWord: exactly 24 bits, bits [23:0], so that the zero-upper-bits invariant of R23
holds by construction (R5, D17). -/
abbrev Word := BitVec 24

/-- The external CPU's 8-bit program counter (R6, R17). -/
abbrev Pc := BitVec 8

end Sys2Proof
end

