-- ==== Sys2Proof/Config.lean ====
section
/-! DEFINITION. The implementation parameters of 00_scope.md section 3, their values for this hardware, and the
open parameters as constants without a body. -/

namespace Sys2Proof

/-- A SubroutineRange: a label and the half-open interval [start, stop) of addresses (R10, R59). Bounds are
natural numbers, so an end of 256 can cover address 255 (R59, D9). -/
structure SubroutineRange where
  label : String
  start : Nat
  stop : Nat
deriving DecidableEq, Repr

/-- An entry as the builder supplies it, for a given `ADDR_WIDTH`: the type of a bound is 0..2^ADDR_WIDTH (R59, D9), so
a bound above it cannot be supplied. Assumption 15. -/
structure SuppliedRange (addrWidth : Nat) where
  label : String
  start : Fin (2 ^ addrWidth + 1)
  stop : Fin (2 ^ addrWidth + 1)
deriving DecidableEq, Repr

/-- The type of SYM_RESOLVE's result (R47): an entry index of the range table, or no entry. -/
inductive LabelId where
  | range (k : Nat)
  | unknown
deriving DecidableEq, Repr

/-- The parameters a model takes as configuration (00_scope.md section 3; R15: "A model represents both as
configuration"). Addresses, bounds and indices are natural numbers (R13). -/
structure Config where
  /-- `ADDR_WIDTH` (R6). -/
  addrWidth : Nat
  /-- `CAPACITY` (R7). -/
  capacity : Nat
  /-- `ROM_IMAGE`, slot 0 first (R11, R15). Assumption 12: whole words, no bytes. -/
  romImage : List Word
  /-- `RANGE_TABLE`, in declaration order (R10, R15). -/
  rangeTable : List SubroutineRange
  /-- How many bits `CONTAINER_WIDTH` has above the word's 24, so that it is at least 24 by construction (R5). -/
  containerPadding : Nat
  /-- `READ_LATENCY` (R86): no rule depends on it, and no definition of the model reads it. -/
  readLatency : Nat
deriving DecidableEq, Repr

/-- `CONTAINER_WIDTH` (R5): any width of at least 24. -/
def Config.containerWidth (c : Config) : Nat := wordWidth + c.containerPadding

/-- `NOP_WORD` (R8). Assumption 16: a named constant, one place to correct a literal (N1). -/
def Config.nopWord : Word := 0x000000

/-- The reset vector's word, 0x160800 (R19, R50). -/
def Config.resetVectorWord : Word := 0x160800

/-- The address the word 0x160800 jumps to: 8, the start of `main` (R50, R80). -/
def Config.jumpTarget : Pc := 8

/-- `SENTINEL_LABEL` (R9). -/
def Config.sentinelLabel : String := "Unknown"

/-- `MAIN_WORDS` (R11, R21): OPEN. A free value: one value per machine, none of which a proof can see.
Assumption 2. -/
opaque Config.mainWords : Fin 9 → Word

/-- `LABEL_CODE` (R47): OPEN, the wire encoding of a `LabelId`; no rule depends on it. Assumption 13. -/
opaque Config.labelCode : LabelId → Nat

/-- Where the external CPU's program counter goes after a no-op: in no source (N5, N6). A free value, drawn
with the counter `State.draws`. Assumption 7. -/
opaque Config.pcAfterNoOp : Nat → Pc

/-- Where the external CPU's program counter stands after a fetch: whether it moves at a fetch, and where to, is in no
source (R17, N6). A free value, drawn with the counter `State.draws`. Assumption 21. -/
opaque Config.pcAfterFetch : Nat → Pc

/-- Slots 8..16, the words of `main` (R21). -/
def Config.mainImage : List Word :=
  [mainWords 0, mainWords 1, mainWords 2, mainWords 3, mainWords 4, mainWords 5, mainWords 6,
    mainWords 7, mainWords 8]

/-- Slots 1..7, the padding after the reset vector (R20). -/
def Config.paddingImage : List Word := List.replicate 7 nopWord

/-- Slots 17..1023, unused (R22, assumption 3). -/
def Config.unusedImage : List Word := List.replicate 1007 nopWord

/-- This hardware's ROM image: R19 (slot 0), R20 (slots 1..7), R21 (8..16), R22 (17..1023, assumption 3). -/
def Config.hardwareImage : List Word :=
  resetVectorWord :: (paddingImage ++ (mainImage ++ unusedImage))

/-- This hardware's range table (R24). -/
def Config.hardwareRanges : List SubroutineRange :=
  [⟨"RESET_vect", 0, 8⟩, ⟨"main", 8, 17⟩]

/-- This hardware: every parameter at the value of 00_scope.md section 3. The container width is any width of
at least 24 there; 32, eight bits above the word, is its example (assumption 17). -/
def Config.hardware : Config where
  addrWidth := 8
  capacity := 1024
  romImage := hardwareImage
  rangeTable := hardwareRanges
  containerPadding := 8
  readLatency := 0

end Sys2Proof
end

