-- ==== Sys2Proof/Syntax.lean ====
section
/-! DEFINITION. The four rows of spec/opcode_table.json as one inductive, and what is presented to the decoder. -/

namespace Sys2Proof

/-- The two ports (R43): the port, not a bit of the request, selects the operation. -/
inductive Port where
  | I
  | S
deriving DecidableEq, Repr

/-- One constructor per row of spec/opcode_table.json: the two requests (R43) and the two whole stored words
(R50). An address is a natural number (R13, R48). -/
inductive Instr where
  /-- `READ a` on port I (R44, R53). -/
  | romRead (a : Nat)
  /-- `RESOLVE a` on port S (R46, R60). -/
  | symResolve (a : Nat)
  /-- The external CPU executes the stored word 0x000000 (R50). -/
  | nopWord
  /-- The external CPU executes the stored word 0x160800 (R50). -/
  | resetVectorJumpWord
deriving DecidableEq, Repr

/-- What stands before the decoder. `onPort` is the notation `I:bbbbbbbb` / `S:bbbbbbbb` of R52: a port and
address bits, the most significant bit first. `storedWord` is a whole 24-bit word in the external CPU's hands:
there is no byte or sub-word form (R30, R31, R33). -/
inductive Encoded where
  | onPort (p : Port) (bits : List Bool)
  | storedWord (w : Word)
deriving DecidableEq, Repr

/-- Why the decoder gives no instruction. -/
inductive Reject where
  /-- A stored word that is neither 0x000000 nor 0x160800: its meaning is "an external specification this module
  does not interpret" (R50, U7). Safe: the model stops. -/
  | opaqueWord (w : Word)
deriving DecidableEq, Repr

end Sys2Proof
end

