-- ==== Sys2Proof/WellFormed.lean ====
section
/-! DEFINITION. Well-formed instructions: an address fits the address type. -/

namespace Sys2Proof

/-- An address input is an `ADDR_WIDTH`-bit unsigned value (R13, R44, R46). The stored words have no operand. -/
def Instr.wf (addrWidth : Nat) : Instr → Bool
  | .romRead a => decide (a < 2 ^ addrWidth)
  | .symResolve a => decide (a < 2 ^ addrWidth)
  | .nopWord => true
  | .resetVectorJumpWord => true

end Sys2Proof
end

