-- ==== Sys2Proof/Decode.lean ====
section
/-! DEFINITION. The decoder of requests and stored words, the encoder, and the opcode table's word interface. -/

namespace Sys2Proof

/-- `n` bits of `v`, from bit `n - 1` down to bit 0 (R12, R52). -/
def toBits : Nat → Nat → List Bool
  | 0, _ => []
  | n + 1, v => v.testBit n :: toBits n v

/-- The unsigned number a list of bits is, the most significant bit first (R12, R13). -/
def ofBits : List Bool → Nat
  | [] => 0
  | b :: bs => b.toNat * 2 ^ bs.length + ofBits bs

/-- The address the `ADDR_WIDTH` lines of a port carry. On exactly `ADDR_WIDTH` bits it is their number,
zero-extended (R13, R48); other lengths are "coerced into the address type" (R49). Assumption 10. -/
def portAddress (addrWidth : Nat) (bits : List Bool) : Nat :=
  ofBits bits % 2 ^ addrWidth

/-- The decoder. On a port it is total: every value decodes to that port's operation (R43, R49). A stored word
is known whole or not at all (R50, N5). -/
def decode (addrWidth : Nat) : Encoded → Except Reject Instr
  | .onPort .I bits => .ok (.romRead (portAddress addrWidth bits))
  | .onPort .S bits => .ok (.symResolve (portAddress addrWidth bits))
  | .storedWord w =>
    if w = Config.nopWord then .ok .nopWord
    else if w = Config.resetVectorWord then .ok .resetVectorJumpWord
    else .error (.opaqueWord w)

/-- The encoder, from the formats R44 and R46 and the whole-word rows of R50. -/
def encode (addrWidth : Nat) : Instr → Encoded
  | .romRead a => .onPort .I (toBits addrWidth a)
  | .symResolve a => .onPort .S (toBits addrWidth a)
  | .nopWord => .storedWord Config.nopWord
  | .resetVectorJumpWord => .storedWord Config.resetVectorWord

/-- A word of spec/opcode_table.json as the decoder's input. A 24-bit row is a stored word; any other is the
address field of a request. The table gives ROM_READ and SYM_RESOLVE the same bits and names the port beside them
(R43), so bits alone stand for a request on port I. Assumption 11. -/
def tableEncoded (nbits w : Nat) : Encoded :=
  if nbits = wordWidth then .storedWord (BitVec.ofNat 24 w) else .onPort .I (toBits nbits w)

/-- The instruction the decoder of this hardware reads from a word of the opcode table. -/
def decodeTableWord (nbits w : Nat) : Option Instr :=
  (decode Config.hardware.addrWidth (tableEncoded nbits w)).toOption

end Sys2Proof
end

