-- ==== Sys2Proof/Machine/State.lean ====
section
/-! DEFINITION. The machine's state as plain data, the state after reset, and why a step can stop. -/

namespace Sys2Proof.Machine

/-- One agent kind per requester class (R4). -/
inductive Agent where
  /-- The fetch stage of the external CPU core (R57). -/
  | fetchStage
  /-- The diagnostic, tracing and logging facilities (R66). -/
  | diagnostics
deriving DecidableEq, Repr

/-- A request as the observation records it: a port and an address (R43). -/
structure Request where
  port : Port
  addr : Nat
deriving DecidableEq, Repr

/-- A result: the word of R45, or the `LabelId` of R47 together with its string. -/
inductive Response where
  | word (data : Word)
  | label (id : LabelId) (text : String)
deriving DecidableEq, Repr

/-- One (request, result) pair of the observation (D22), with the class of the requester it went to. -/
structure Observation where
  agent : Agent
  request : Request
  response : Response
deriving DecidableEq, Repr

/-- An input of the machine. There is no event that writes a table (R26, R28, R37). -/
inductive Event where
  /-- An agent presents a request on a port, or the external CPU executes a stored word it holds. Which agent class
  stands for the external CPU as it executes a word is the model's choice: any, since R4 names the two classes as
  requesters only (assumption 22). -/
  | present (agent : Agent) (what : Encoded)
  /-- The fetch stage issues ROM_READ with the address equal to the current program counter (R57). Where the program
  counter stands afterwards is a free value (assumption 21). -/
  | fetchCycle
deriving DecidableEq, Repr

/-- The state. `cfg` is everything the spec gives the block: two constant tables, and the parameters (R15,
assumption 1). `cpuPc` is the external CPU's (R17, assumption 6). The rest is the model's own: inputs to come and the
observation so far (assumptions 4 and 5), and the counter of free values (assumptions 7 and 21). -/
structure State where
  /-- ROM_IMAGE, RANGE_TABLE and the parameters (R15). No step writes it (R26). -/
  cfg : Config
  /-- Events still to come, the oldest first. -/
  pending : List Event
  /-- The class of the requester whose request is being answered. -/
  requester : Agent
  /-- The (request, result) pairs so far, the oldest first (D22). -/
  observed : List Observation
  /-- The external CPU's 8-bit program counter (R17). -/
  cpuPc : Pc
  /-- How many free values have been drawn. -/
  draws : Nat
deriving DecidableEq, Repr

/-- The block raises no exception and has no failure mode (R67), so there is no fault: the type is empty. -/
inductive Fault where
deriving DecidableEq, Repr

/-- Why the model gives no next state. -/
inductive Refusal where
  /-- Raised by `exec` for an instruction without a meaning; none is left. Safe. -/
  | notModelled (mnemonic : String)
  /-- Raised by `step` when the external CPU executes a stored word that this block does not interpret (R50,
  U7). Safe. -/
  | opaqueWord (w : Word)
  /-- Raised by `configure`: an image word with a bit above bit 23 (R23). Safe. -/
  | imageWordTooWide
  /-- Raised by `configure`: the range table fails RangeTableWF (R25). Safe. -/
  | rangeTableIllFormed
deriving DecidableEq, Repr

/-- A machine of configuration `c` before its first request (R81). -/
def State.initial (c : Config) : State where
  cfg := c
  pending := []
  requester := .fetchStage
  observed := []
  cpuPc := 0
  draws := 0

/-- The machine right after reset: the tables hold this hardware's values (R79), no request has been issued,
and the external CPU's program counter is at the reset vector (R80, D16; assumption 6). -/
def State.reset : State := State.initial Config.hardware

end Sys2Proof.Machine
end

