-- ==== Sys2Proof/Machine/Operands.lean ====
section
/-! DEFINITION. Operand and result forms: bit fields of a word (R12), the wider container of a word (R5, R45), and
the encoding of what stands before the decoder for each event. -/

namespace Sys2Proof.Machine

/-- The field `w[hi:lo]`, read as an unsigned number (R12). -/
def wordField (w : Word) (hi lo : Nat) : Nat :=
  (w.toNat >>> lo) % 2 ^ (hi + 1 - lo)

/-- A word carried in a container of `width` bits, bits above 23 zero (R45). -/
def inContainer (width : Nat) (w : Word) : BitVec width :=
  w.setWidth width

/-- The check of R23 on a container's value: bits above bit 23 are zero. -/
def containerFits (v : Nat) : Bool :=
  decide (v < 2 ^ wordWidth)

/-- The word a container's value holds. -/
def ofContainer (v : Nat) : Word :=
  BitVec.ofNat 24 v

/-- What stands before the decoder for an event. A fetch cycle presents the program counter's eight bits on
port I (R17, R57); the address is read with no offset, scaling or sign extension (R48). -/
def presented (e : Event) (s : State) : Encoded :=
  match e with
  | .present _ what => what
  | .fetchCycle => .onPort .I (toBits 8 s.cpuPc.toNat)

/-- The class of the agent an event comes from (R4). -/
def eventAgent (e : Event) : Agent :=
  match e with
  | .present agent _ => agent
  | .fetchCycle => .fetchStage

/-- An entry of the range table from what the builder supplies (R10, R59). -/
def suppliedEntry {addrWidth : Nat} (r : SuppliedRange addrWidth) : SubroutineRange :=
  ⟨r.label, r.start.val, r.stop.val⟩

end Sys2Proof.Machine
end

