-- ==== Sys2Proof/Machine/Ops.lean ====
section
/-! DEFINITION. The named operations over the two tables, the one way a result is delivered, and the searches R64
admits. There is no operation that writes a table (R26), and none that takes an exception or returns from one: the
block has no trap (R67, R71, R72). -/

namespace Sys2Proof.Machine

/-- The ROM image as a memory: a fixed-length sequence of whole words (R7, R30). Assumption 12. -/
abbrev Memory := List Word

/-- The image has exactly CAPACITY slots (R7, R11). A dense sequence is its own canonical form. -/
abbrev Memory.wf (capacity : Nat) (m : Memory) : Prop := m.length = capacity

/-- What a slot that the image does not list reads as: the zero instruction (R8). An image of CAPACITY words
lists every slot. -/
def unlistedWord : Word := Config.nopWord

/-- `ROM_IMAGE[i]` (R14, R30). -/
def slot (m : Memory) (i : Nat) : Word :=
  m.getD i unlistedWord

/-- `RomRead(a)` (R53): in bounds the stored word, verbatim (R54); out of bounds the zero word, neither
saturated nor wrapped (R55). -/
def romRead (c : Config) (a : Nat) : Word :=
  if a < c.capacity then slot c.romImage a else Config.nopWord

/-- `Contains(r, a)` (R59). -/
def contains (r : SubroutineRange) (a : Nat) : Bool :=
  decide (r.start ≤ a) && decide (a < r.stop)

/-- The scan of R60 from entry index `k` on: the first entry in declaration order that contains `a` (R61). -/
def resolveFrom : Nat → List SubroutineRange → Nat → LabelId
  | _, [], _ => .unknown
  | k, r :: rest, a => if contains r a then .range k else resolveFrom (k + 1) rest a

/-- `Resolve(a)` over a table (R60). -/
def resolve (table : List SubroutineRange) (a : Nat) : LabelId :=
  resolveFrom 0 table a

/-- `labelString` (R47, R62). An index outside the table is no `LabelId` of that table and `resolve` never gives
one; the function answers the sentinel there (assumption 13). -/
def labelString (table : List SubroutineRange) (id : LabelId) : String :=
  match id with
  | .range k =>
    match table[k]? with
    | some r => r.label
    | none => Config.sentinelLabel
  | .unknown => Config.sentinelLabel

/-- SYM_RESOLVE's result: a `LabelId` and its string (R47, R60). -/
def symbolResponse (c : Config) (a : Nat) : Response :=
  .label (resolve c.rangeTable a) (labelString c.rangeTable (resolve c.rangeTable a))

/-- The result the rules give a request, a function of its port and address and the two tables alone (R84). -/
def answer (c : Config) (r : Request) : Response :=
  match r.port with
  | .I => .word (romRead c r.addr)
  | .S => symbolResponse c r.addr

/-- Deliver a result to the requester: the pair joins the observation (D22), nothing else changes (R53, R60:
"State written: none"). -/
def deliver (s : State) (r : Request) (resp : Response) : State :=
  { s with observed := s.observed ++ [⟨s.requester, r, resp⟩] }

/-- The external CPU's program counter moves; the block is untouched (R17, R71). -/
def moveCpuPc (s : State) (pc : Pc) : State :=
  { s with cpuPc := pc }

/-- One free value is used up (assumption 7). -/
def countDraw (s : State) : State :=
  { s with draws := s.draws + 1 }

/-- The oldest event `e` is taken off, `rest` is left, and the requester noted (assumptions 4 and 5). A fetch cycle also
leaves the external CPU's program counter at a free value: no source says whether it moves at a fetch, or where to (R17,
N6; assumption 21). An event that brings its own address leaves it alone (assumption 21). For a stored word the requester noted is whatever
class the event carries (assumption 22). -/
def takeEvent (s : State) (e : Event) (rest : List Event) : State :=
  match e with
  | .present agent _ => { s with pending := rest, requester := agent }
  | .fetchCycle =>
    countDraw (moveCpuPc { s with pending := rest, requester := .fetchStage }
      (Config.pcAfterFetch s.draws))

/-- A requester submits an event (R4). -/
def submit (s : State) (e : Event) : State :=
  { s with pending := s.pending ++ [e] }

/-- The wire value of a label in a realisation (R47, LABEL_CODE: open). -/
def labelWire (id : LabelId) : Nat :=
  Config.labelCode id

/-- A word result in the configuration's container (R5, R45). -/
def containerOutput (c : Config) (w : Word) : BitVec c.containerWidth :=
  inContainer c.containerWidth w

/-- Two entries share no address (R25.1): their intersection, from the larger start to the smaller end, is
empty. -/
def disjointRanges (r t : SubroutineRange) : Bool :=
  decide (min r.stop t.stop ≤ max r.start t.start)

/-- `RangeTableWF` (R25): disjoint and ordered by start address. Empty entries are admitted (R59, D11). -/
def rangeTableWF : List SubroutineRange → Bool
  | [] => true
  | r :: rest =>
    rest.all (fun t => disjointRanges r t && decide (r.start ≤ t.start)) && rangeTableWF rest

/-- Range bounds are in 0..2^ADDR_WIDTH (R59). -/
def boundsFit (addrWidth : Nat) (table : List SubroutineRange) : Bool :=
  table.all fun r => decide (r.start ≤ 2 ^ addrWidth) && decide (r.stop ≤ 2 ^ addrWidth)

/-- The halving search of R64: how many leading entries have `start ≤ a`, looked for between `lo` and `hi`. -/
def countStarts (table : List SubroutineRange) (a : Nat) : Nat → Nat → Nat → Nat
  | 0, lo, _ => lo
  | fuel + 1, lo, hi =>
    if lo < hi then
      match table[(lo + hi) / 2]? with
      | some r =>
        if r.start ≤ a then countStarts table a fuel ((lo + hi) / 2 + 1) hi
        else countStarts table a fuel lo ((lo + hi) / 2)
      | none => lo
    else lo

/-- The binary-search realisation R64 speaks of: pick the last entry with `start ≤ a`, then test `a < end`.
It is a realisation, not the meaning of SYM_RESOLVE (C2, C6; assumption 19). -/
def resolveBinary (table : List SubroutineRange) (a : Nat) : LabelId :=
  match countStarts table a table.length 0 table.length with
  | 0 => .unknown
  | k + 1 =>
    match table[k]? with
    | some r => if a < r.stop then .range k else .unknown
    | none => .unknown

/-- A realisation that implements only the first `n` slots (R36, D19; assumption 19). -/
def truncated (c : Config) (n : Nat) : Config :=
  { c with capacity := min c.capacity n, romImage := c.romImage.take n }

end Sys2Proof.Machine
end

