-- ==== Sys2Proof/Machine/Flags.lean ====
section
/-! DEFINITION. The block has no flag (R18), writes none (R53, R60) and raises no signal (R57, R68). What stands
here is what the external CPU may look for in a result on its own account: a no-op word and an unknown label. -/

namespace Sys2Proof.Machine

/-- A result that carries the zero instruction (R50, R57). -/
def isNoOpResult (resp : Response) : Bool :=
  match resp with
  | .word w => decide (w = Config.nopWord)
  | .label _ _ => false

/-- A result that names no range (R62, R66). A range labelled `Unknown` is not one (R47). -/
def isUnknownResult (resp : Response) : Bool :=
  match resp with
  | .word _ => false
  | .label id _ => decide (id = .unknown)

end Sys2Proof.Machine
end

