-- ==== Sys2Proof/Machine/RomRead.lean ====
section
/-! DEFINITION. The meaning of ROM_READ (40_rom_read.md). -/

namespace Sys2Proof.Machine

/-- ROM_READ (R53): the word of `RomRead(a)`; no state written, no flag, no exception (R56). -/
def execRomRead (a : Nat) (s : State) : Host.Outcome State Fault Refusal :=
  .next (deliver s ⟨.I, a⟩ (.word (romRead s.cfg a)))

end Sys2Proof.Machine
end

