-- ==== Sys2Proof/Machine/StoredWords.lean ====
section
/-! DEFINITION. The meanings of the two whole stored words (R50). Both are executed by the external CPU; the block
saves nothing, changes nothing and transfers no control (R71). -/

namespace Sys2Proof.Machine

/-- NOP_WORD, 0x000000 (R8, R50): "no operation". Only the external CPU's program counter moves on, and where to is
in no source (N5, N6): a free value, assumption 7. -/
def execNopWord (s : State) : Host.Outcome State Fault Refusal :=
  .next (countDraw (moveCpuPc s (Config.pcAfterNoOp s.draws)))

/-- RESET_VECTOR_JUMP_WORD, 0x160800 (R50): the external CPU jumps to address 8, the start of `main`.
Assumption 8. -/
def execResetVectorJumpWord (s : State) : Host.Outcome State Fault Refusal :=
  .next (moveCpuPc s Config.jumpTarget)

end Sys2Proof.Machine
end

