-- ==== Sys2Proof/Machine/SymResolve.lean ====
section
/-! DEFINITION. The meaning of SYM_RESOLVE (41_symbol_resolve.md). -/

namespace Sys2Proof.Machine

/-- SYM_RESOLVE (R60): the `LabelId` of `Resolve(a)` and its string; no state written, no flag, no exception,
and `ROM_IMAGE` is not read (R65). -/
def execSymResolve (a : Nat) (s : State) : Host.Outcome State Fault Refusal :=
  .next (deliver s ⟨.S, a⟩ (symbolResponse s.cfg a))

end Sys2Proof.Machine
end

