-- ==== Sys2Proof/Machine/Dispatch.lean ====
section
/-! DEFINITION. One arm per row of spec/opcode_table.json. -/

namespace Sys2Proof.Machine

def exec (i : Instr) (s : State) : Host.Outcome State Fault Refusal :=
  match i with
  | .romRead a => Sys2Proof.Machine.execRomRead a s
  | .symResolve a => Sys2Proof.Machine.execSymResolve a s
  | .nopWord => Sys2Proof.Machine.execNopWord s
  | .resetVectorJumpWord => Sys2Proof.Machine.execResetVectorJumpWord s

end Sys2Proof.Machine
end

