-- ==== Sys2Proof/Machine/Step.lean ====
section
/-! DEFINITION. One step: one request/response (R4, D4). -/

namespace Sys2Proof.Machine

/-- The refusal a rejected word ends in (U7). -/
def rejection (r : Reject) : Refusal :=
  match r with
  | .opaqueWord w => .opaqueWord w

/-- One step takes the oldest event, decodes what it presents and runs it. A fetch cycle presents the program counter as
it stands before the step; what it is afterwards is the model's choice of a free value, since the spec leaves open
whether it moves at a fetch (R17, N6; assumption 21, `takeEvent`). With no event the block takes no step of
its own (R4): the state stays as it is. Assumption 4. -/
def step (s : State) : Host.Outcome State Fault Refusal :=
  match s.pending with
  | [] => .next s
  | e :: rest =>
    match decode s.cfg.addrWidth (presented e s) with
    | .ok i => exec i (takeEvent s e rest)
    | .error r => .refused (rejection r)

/-- `s` with a word of the opcode table presented as the very next event. Assumption 11. -/
def State.withFetchWord (s : State) (nbits w : Nat) : State :=
  { s with pending := .present .fetchStage (tableEncoded nbits w) :: s.pending }

end Sys2Proof.Machine
end

