-- ==== Sys2Proof/Machine/Configure.lean ====
section
/-! DEFINITION. Boot: the builder supplies the two tables, and the model admits or refuses them (R82, R25, R23). -/

namespace Sys2Proof.Machine

/-- The builder's one move, before the first request (R82, D23): an image of CAPACITY containers (R7, R11) and a range
table with bounds of the bound type (R59), for a machine with `c`'s other parameters. The only refusals are R67's: an
image that breaks R23 and a range table that breaks R25. Everything else the parameters exclude has no term
(assumption 15). -/
def configure (c : Config) (image : Vector (BitVec c.containerWidth) c.capacity)
    (table : List (SuppliedRange c.addrWidth)) : Host.Outcome State Fault Refusal :=
  if image.toList.all (fun v => containerFits v.toNat) = false then .refused .imageWordTooWide
  else if rangeTableWF (table.map suppliedEntry) = false then .refused .rangeTableIllFormed
  else
    .next (State.initial { c with
      romImage := image.toList.map fun v => ofContainer v.toNat
      rangeTable := table.map suppliedEntry })

end Sys2Proof.Machine
end

