-- ==== Sys2Proof/Safety.lean ====
section
/-! DEFINITION. What a safe run is: an admitted configuration, and an observation in which every result is the one
the rules give its request. -/

namespace Sys2Proof.Machine

/-- A configuration that R82 admits: every word fits by type (R23), the image has CAPACITY words (R7), the range
table is well-formed (R25) and its bounds fit (R59). A container holds a word by construction (R5). -/
def Admitted (c : Config) : Prop :=
  Memory.wf c.capacity c.romImage ∧ rangeTableWF c.rangeTable = true ∧
    boundsFit c.addrWidth c.rangeTable = true

/-- A recorded pair that the rules allow: the address is one of the address type, and the result is the
request's (R53, R60). -/
def SoundObservation (c : Config) (o : Observation) : Prop :=
  o.request.addr < 2 ^ c.addrWidth ∧ o.response = answer c o.request

/-- The invariant of the machine (R26, R27, R84). -/
def State.Inv (s : State) : Prop :=
  Admitted s.cfg ∧ ∀ o ∈ s.observed, SoundObservation s.cfg o

/-- `n` steps of the machine, at the model's own types: a run is a finite sequence of requests (D22). -/
def run (n : Nat) (s : State) : Host.Outcome State Fault Refusal :=
  Host.Core.run Sys2Proof.core n s

/-- A request on a port from any requester, as an event (R43, R73). -/
def portEvent (agent : Agent) (p : Port) (bits : List Bool) : Event :=
  .present agent (.onPort p bits)

end Sys2Proof.Machine
end

