-- ==== Sys2Proof/Certificates/Slice0/Obligations.lean ====
section
/-! DEFINITION. The statements for the provers. Ranges are written with explicit bounds and results with explicit
words, so that a statement does not rest on the operation it speaks about. -/

open Sys2Proof Sys2Proof.Machine

/-! ### Reset and configuration -/

/-- R19, R20, R24: the words and the range table the source gives, at reset. -/
def Obligations.ResetTablesHoldTheGivenWordsAndRanges : Prop :=
  State.reset.cfg.romImage[0]? = some 0x160800#24 ∧
  (∀ i, 1 ≤ i → i ≤ 7 → State.reset.cfg.romImage[i]? = some 0x000000#24) ∧
  State.reset.cfg.rangeTable = [⟨"RESET_vect", 0, 8⟩, ⟨"main", 8, 17⟩] ∧
  (∀ a, contains ⟨"RESET_vect", 0, 8⟩ a = true ↔ a ≤ 7) ∧
  (∀ a, contains ⟨"main", 8, 17⟩ a = true ↔ 8 ≤ a ∧ a ≤ 16)

/-- R21, R22: `main`'s nine open words and the zero tail, both of which the spec marks as its own decisions (D2, D3;
assumptions 2 and 3). The image has 1024 slots (R7). -/
def Obligations.ResetHoldsMainWordsThenZeros : Prop :=
  State.reset.cfg.romImage.length = 1024 ∧
  (∀ k : Fin 9, State.reset.cfg.romImage[8 + k.val]? = some (Config.mainWords k)) ∧
  (∀ i, 17 ≤ i → i ≤ 1023 → State.reset.cfg.romImage[i]? = some 0x000000#24)

/-- The invariant holds at reset: this hardware's configuration is admitted and nothing has been observed. -/
def Obligations.ResetMeetsTheMachineInvariant : Prop :=
  State.reset.Inv

/-- R81, R82: supplying this hardware's image, in containers, and its range table gives the reset machine. -/
def Obligations.ConfigureBuildsTheResetMachine : Prop :=
  ∀ (image : Vector (BitVec Config.hardware.containerWidth) Config.hardware.capacity)
    (table : List (SuppliedRange Config.hardware.addrWidth)),
    image.toList.map BitVec.toNat = Config.hardware.romImage.map BitVec.toNat →
    table.map suppliedEntry = Config.hardware.rangeTable →
    configure Config.hardware image table = .next State.reset

/-- R25: the decidable check says exactly that no address is in two entries and that starts do not decrease. The
admission of empty entries is the spec's decision D11. -/
def Obligations.RangeTableCheckIsDisjointAndOrdered : Prop :=
  ∀ table : List SubroutineRange, rangeTableWF table = true ↔
    (∀ i j, ∀ hi : i < table.length, ∀ hj : j < table.length, i ≠ j →
      ¬ ∃ a, (table[i].start ≤ a ∧ a < table[i].stop) ∧ (table[j].start ≤ a ∧ a < table[j].stop)) ∧
    (∀ i j, ∀ hi : i < table.length, ∀ hj : j < table.length, i < j →
      table[i].start ≤ table[j].start)

/-- R23, R25, R82: a configuration is admitted exactly when the image and the range table pass their checks. The admitted
machine is the initial state of exactly the supplied tables and parameters, and it meets the invariant. That the image's
length, the bounds and the container's width are right by their types is assumption 15. -/
def Obligations.ConfigureAdmitsExactlyWellFormedParts : Prop :=
  ∀ (c : Config) (image : Vector (BitVec c.containerWidth) c.capacity)
    (table : List (SuppliedRange c.addrWidth)),
    ((∃ s, configure c image table = .next s) ↔
      (∀ v ∈ image.toList, v.toNat < 2 ^ 24) ∧ rangeTableWF (table.map suppliedEntry) = true) ∧
    (∀ s, configure c image table = .next s → s.Inv ∧
      s.cfg.romImage.map BitVec.toNat = image.toList.map BitVec.toNat ∧
      s = State.initial { c with romImage := s.cfg.romImage, rangeTable := table.map suppliedEntry })

/-- R23, R25, R67: an image with a bit above bit 23 is refused, and so is a range table that fails the check, each by its
own name; configuration refuses nothing else and never faults. -/
def Obligations.ConfigureRefusesBadImagesAndTables : Prop :=
  ∀ (c : Config) (image : Vector (BitVec c.containerWidth) c.capacity)
    (table : List (SuppliedRange c.addrWidth)),
    ((∃ v ∈ image.toList, 2 ^ 24 ≤ v.toNat) →
      configure c image table = .refused .imageWordTooWide) ∧
    ((∀ v ∈ image.toList, v.toNat < 2 ^ 24) → rangeTableWF (table.map suppliedEntry) = false →
      configure c image table = .refused .rangeTableIllFormed) ∧
    (∀ f, configure c image table ≠ .fault f) ∧
    (∀ r, configure c image table = .refused r →
      (r = .imageWordTooWide ∧ ∃ v ∈ image.toList, 2 ^ 24 ≤ v.toNat) ∨
      (r = .rangeTableIllFormed ∧ rangeTableWF (table.map suppliedEntry) = false))

/-! ### ROM_READ -/

/-- R54: an in-bounds read completes with the stored word, verbatim, and in a wider container the bits above it are
zero; nothing but the observation changes. -/
def Obligations.RomReadInBoundsIsTheStoredWord : Prop :=
  ∀ (s : State) (a : Nat) (_ : a < s.cfg.capacity) (h : a < s.cfg.romImage.length),
    exec (.romRead a) s =
      .next { s with observed := s.observed ++ [⟨s.requester, ⟨.I, a⟩, .word s.cfg.romImage[a]⟩] } ∧
    ∀ n, 24 ≤ n → (inContainer n s.cfg.romImage[a]).toNat = s.cfg.romImage[a].toNat

/-- R55: an out-of-bounds read completes with the zero word, neither the last stored word nor a wrapped one; on this
hardware no address on the port is out of bounds. -/
def Obligations.RomReadOutOfBoundsIsZero : Prop :=
  (∀ (s : State) (a : Nat), s.cfg.capacity ≤ a →
    exec (.romRead a) s =
      .next { s with observed := s.observed ++ [⟨s.requester, ⟨.I, a⟩, .word 0x000000#24⟩] }) ∧
  (∀ bits, portAddress Config.hardware.addrWidth bits < Config.hardware.capacity)

/-- R58: ROM_READ's result at every 8-bit address of this hardware. Addresses 8..16 hold the open words, and the zero
at 17..255 is the spec's decision D3 (assumption 3). -/
def Obligations.RomReadResultTableOfThisHardware : Prop :=
  ∀ s : State, s.cfg = Config.hardware →
    (∀ a w, (a = 0 ∧ w = 0x160800#24) ∨ (1 ≤ a ∧ a ≤ 7 ∧ w = 0x000000#24) ∨
        (∃ k : Fin 9, a = 8 + k.val ∧ w = Config.mainWords k) ∨
        (17 ≤ a ∧ a ≤ 255 ∧ w = 0x000000#24) →
      exec (.romRead a) s =
        .next { s with observed := s.observed ++ [⟨s.requester, ⟨.I, a⟩, .word w⟩] })

/-- R45: ROM_READ's response is one 24-bit word, equal to the stored word or to the zero word; in any wider container
it keeps its value and every bit above bit 23 is zero. -/
def Obligations.RomReadResponseKeepsUpperContainerBitsZero : Prop :=
  ∀ (s : State) (a : Nat), ∃ w : Word,
    exec (.romRead a) s =
      .next { s with observed := s.observed ++ [⟨s.requester, ⟨.I, a⟩, .word w⟩] } ∧
    (s.cfg.romImage[a]? = some w ∨ w = 0x000000#24) ∧
    ∀ n, 24 ≤ n → (inContainer n w).toNat = w.toNat ∧
      ∀ i, 24 ≤ i → (inContainer n w).getLsbD i = false

/-- R36, D19: at 8 address bits a realisation that implements only slots 0..255 gives every reachable read the same
result. That the realisation is the machine with its image and capacity cut is assumption 19. -/
def Obligations.FirstSlotsSufficeForReachableReads : Prop :=
  ∀ (s : State) (a : Nat), a < 2 ^ 8 →
    ∃ resp, exec (.romRead a) s =
        .next { s with observed := s.observed ++ [⟨s.requester, ⟨.I, a⟩, resp⟩] } ∧
      exec (.romRead a) { s with cfg := truncated s.cfg 256 } =
        .next { s with cfg := truncated s.cfg 256,
                       observed := s.observed ++ [⟨s.requester, ⟨.I, a⟩, resp⟩] }

/-! ### SYM_RESOLVE -/

/-- R61: SYM_RESOLVE completes with the label of the first range, in declaration order, that contains the address,
whether or not the table is well-formed; a table that is not is refused at configuration. -/
def Obligations.SymResolveFirstMatchWins : Prop :=
  (∀ (s : State) (a k : Nat) (h : k < s.cfg.rangeTable.length),
    (s.cfg.rangeTable[k].start ≤ a ∧ a < s.cfg.rangeTable[k].stop) →
    (∀ j, ∀ hj : j < k, ¬ ((s.cfg.rangeTable[j]'(Nat.lt_trans hj h)).start ≤ a ∧
      a < (s.cfg.rangeTable[j]'(Nat.lt_trans hj h)).stop)) →
    exec (.symResolve a) s =
      .next { s with observed := s.observed ++
        [⟨s.requester, ⟨.S, a⟩, .label (.range k) s.cfg.rangeTable[k].label⟩] }) ∧
  (∀ (c : Config) (image : Vector (BitVec c.containerWidth) c.capacity)
    (table : List (SuppliedRange c.addrWidth)) (t : State),
    rangeTableWF (table.map suppliedEntry) = false → configure c image table ≠ .next t)

/-- R62: with no range that contains the address, in a gap or beyond the last range, SYM_RESOLVE completes with the
sentinel. -/
def Obligations.SymResolveNoMatchIsUnknown : Prop :=
  ∀ (s : State) (a : Nat),
    (∀ r ∈ s.cfg.rangeTable, ¬ (r.start ≤ a ∧ a < r.stop)) →
    exec (.symResolve a) s =
      .next { s with observed := s.observed ++
        [⟨s.requester, ⟨.S, a⟩, .label .unknown "Unknown"⟩] }

/-- R65, R47: SYM_RESOLVE completes in every state, at every address, with the sentinel or with a valid entry index,
that entry's label, and an entry that contains the address. -/
def Obligations.SymResolveAlwaysAnswersAValidLabel : Prop :=
  ∀ (s : State) (a : Nat), ∃ id text,
    exec (.symResolve a) s =
      .next { s with observed := s.observed ++ [⟨s.requester, ⟨.S, a⟩, .label id text⟩] } ∧
    ((id = .unknown ∧ text = "Unknown" ∧
        ∀ r ∈ s.cfg.rangeTable, ¬ (r.start ≤ a ∧ a < r.stop)) ∨
     (∃ k, ∃ h : k < s.cfg.rangeTable.length, id = .range k ∧
        text = s.cfg.rangeTable[k].label ∧
        s.cfg.rangeTable[k].start ≤ a ∧ a < s.cfg.rangeTable[k].stop))

/-- R63: SYM_RESOLVE's result at every 8-bit address of this hardware. -/
def Obligations.SymResolveResultTableOfThisHardware : Prop :=
  ∀ s : State, s.cfg = Config.hardware →
    (∀ a id text, (a ≤ 7 ∧ id = .range 0 ∧ text = "RESET_vect") ∨
        (8 ≤ a ∧ a ≤ 16 ∧ id = .range 1 ∧ text = "main") ∨
        (17 ≤ a ∧ a ≤ 255 ∧ id = .unknown ∧ text = "Unknown") →
      exec (.symResolve a) s =
        .next { s with observed := s.observed ++ [⟨s.requester, ⟨.S, a⟩, .label id text⟩] })

/-- R64: on a well-formed table at most one entry contains an address, so a search that finds any containing entry
has found the one SYM_RESOLVE gives. -/
def Obligations.AnySearchOnAWellFormedTableAgrees : Prop :=
  ∀ (s : State) (a k : Nat) (h : k < s.cfg.rangeTable.length),
    rangeTableWF s.cfg.rangeTable = true →
    s.cfg.rangeTable[k].start ≤ a → a < s.cfg.rangeTable[k].stop →
    exec (.symResolve a) s =
      .next { s with observed := s.observed ++
        [⟨s.requester, ⟨.S, a⟩, .label (.range k) s.cfg.rangeTable[k].label⟩] }

/-- R64, C6: on a well-formed table without empty entries the halving binary search gives `Resolve(a)` at every
address. That the search halves, and its shape, are assumption 19. -/
def Obligations.BinarySearchGivesTheFirstMatch : Prop :=
  ∀ (table : List SubroutineRange) (a : Nat), rangeTableWF table = true →
    (∀ r ∈ table, r.start < r.stop) → resolveBinary table a = resolve table a

/-! ### The two stored words -/

/-- R50.2, R8: the external CPU's no-op completes in every state; the model's free value (assumption 7) is where the
program counter goes, and nothing else but the draw counter changes. -/
def Obligations.NopWordMovesOnlyTheExternalProgramCounter : Prop :=
  ∀ s : State, ∃ pc : Pc,
    exec .nopWord s = .next { s with cpuPc := pc, draws := s.draws + 1 }

/-- R50.3: the word 0x160800 completes in every state; the external CPU's program counter becomes 8, and nothing else
changes. That this program counter stands in State is the model's choice (assumptions 6 and 8). -/
def Obligations.ResetVectorWordJumpsToAddressEight : Prop :=
  ∀ s : State, exec .resetVectorJumpWord s = .next { s with cpuPc := 8 }

/-- R71: when the external CPU executes either stored word, the block saves nothing, answers nothing and keeps both
tables at every slot and entry. -/
def Obligations.StoredWordsLeaveTheBlockAlone : Prop :=
  ∀ (i : Instr) (s t : State), i = .nopWord ∨ i = .resetVectorJumpWord → exec i s = .next t →
    t.cfg = s.cfg ∧ (∀ a, slot t.cfg.romImage a = slot s.cfg.romImage a) ∧
    t.observed = s.observed ∧ t.pending = s.pending ∧ t.requester = s.requester

/-- U7, R50: a stored word that is neither 0x000000 nor 0x160800 is not interpreted: the model refuses it by name
(assumption 9), whichever agent class the event carries (assumption 22). -/
def Obligations.OtherStoredWordsAreRefusedByName : Prop :=
  ∀ (s : State) (agent : Agent) (w : Word) (rest : List Event),
    s.pending = .present agent (.storedWord w) :: rest → w ≠ 0x000000#24 → w ≠ 0x160800#24 →
    step s = .refused (.opaqueWord w)

/-! ### Encoding -/

/-- R49: every request decodes: any `ADDR_WIDTH` bits on a port give that port's operation at an address of the address
type, and the bits of a value give that value. -/
def Obligations.EveryPortValueDecodesToItsOperation : Prop :=
  (∀ (w : Nat) (bits : List Bool), bits.length = w → ∃ a, a < 2 ^ w ∧
    decode w (.onPort .I bits) = .ok (.romRead a) ∧
    decode w (.onPort .S bits) = .ok (.symResolve a)) ∧
  (∀ w v, v < 2 ^ w →
    decode w (.onPort .I (toBits w v)) = .ok (.romRead v) ∧
    decode w (.onPort .S (toBits w v)) = .ok (.symResolve v))

/-- Decoding an encoded well-formed instruction gives it back, at every address width and every operand. -/
def Obligations.DecodeOfEncodeIsTheInstruction : Prop :=
  ∀ (w : Nat) (i : Instr), i.wf w = true → decode w (encode w i) = .ok i

/-- Each encoding of exactly `ADDR_WIDTH` bits, and each whole word, has one meaning: what decodes to an instruction
is that instruction's encoding. -/
def Obligations.EncodeOfDecodeIsTheEncoding : Prop :=
  ∀ (w : Nat) (e : Encoded) (i : Instr),
    (∀ p bits, e = .onPort p bits → bits.length = w) → decode w e = .ok i →
    i.wf w = true ∧ encode w i = e

/-- Words written out from R44, R46 and R50. -/
def Obligations.WrittenOutWordsDecode : Prop :=
  decode 8 (.onPort .I [false, false, false, true, false, false, false, true]) = .ok (.romRead 17) ∧
  decode 8 (.onPort .S [false, true, true, false, false, true, false, false]) =
    .ok (.symResolve 100) ∧
  decode 8 (.storedWord 0b000000000000000000000000#24) = .ok .nopWord ∧
  decode 8 (.storedWord 0b000101100000100000000000#24) = .ok .resetVectorJumpWord

/-! ### The step -/

/-- A step runs the decoded instruction: the oldest event is taken off, its requester noted, and the instruction it
presents is run there. That events stand in a list and the oldest is taken is the model's choice (assumption 4), and so
is the requester field (assumption 5). A fetch cycle leaves the external CPU's program counter at a free value, which
uses one draw, and an event that brings its own address leaves it alone (assumption 21). That a stored word may carry
either agent class is assumption 22. -/
def Obligations.StepRunsTheDecodedInstruction : Prop :=
  (∀ (s : State) (agent : Agent) (what : Encoded) (rest : List Event) (i : Instr),
    s.pending = .present agent what :: rest → decode s.cfg.addrWidth what = .ok i →
    step s = exec i { s with pending := rest, requester := agent }) ∧
  (∀ (s : State) (rest : List Event) (i : Instr),
    s.pending = .fetchCycle :: rest →
    decode s.cfg.addrWidth (.onPort .I (toBits 8 s.cpuPc.toNat)) = .ok i →
    ∃ pc, step s = exec i
      { s with pending := rest, requester := .fetchStage, cpuPc := pc, draws := s.draws + 1 })

/-- R4: with no event the block takes no step of its own (assumption 4: the step leaves the state as it is). -/
def Obligations.StepWithoutEventsChangesNothing : Prop :=
  ∀ s : State, s.pending = [] → step s = .next s

/-- R57: a fetch cycle is one ROM_READ with the address equal to the current program counter. Where the program counter
stands afterwards is in no source (N6): a free value (assumption 21). -/
def Obligations.FetchCycleReadsAtTheProgramCounter : Prop :=
  ∀ (s : State) (rest : List Event), s.pending = .fetchCycle :: rest → 8 ≤ s.cfg.addrWidth →
    ∃ pc, step s = exec (.romRead s.cpuPc.toNat)
      { s with pending := rest, requester := .fetchStage, cpuPc := pc, draws := s.draws + 1 }

/-- R67, R68: no step faults, and a step is refused only where the external CPU executes a word the block does not
interpret; never on a port, nor on a fetch cycle. That refusal is the treatment U7 names (assumption 9), beside the
refusals R67 has at configuration. The word may come with either agent class (assumption 22). -/
def Obligations.StepNeverFaultsAndNeverRefusesARequest : Prop :=
  ∀ s : State, (∀ f, step s ≠ .fault f) ∧
    ∀ r, step s = .refused r → ∃ agent w rest,
      s.pending = .present agent (.storedWord w) :: rest ∧
      w ≠ 0x000000#24 ∧ w ≠ 0x160800#24 ∧ r = .opaqueWord w

/-- R56, R65, R73: a request from any requester, on either port, is answered in one step, at the address its bits are
and with the result the rules give that request: on port I the word of the image or the zero word, on port S a label.
Only the observation, the input list and the requester field change. The list and the requester field are the model's
choice (assumptions 4 and 5), and so is that other than `ADDR_WIDTH` bits are answered too (assumption 10). That the
external CPU's program counter and the draws stay as they are after a request that brings its own address, one of the
fetch stage on port I too, is the model's choice as well (assumption 21). -/
def Obligations.EveryPortRequestIsAnsweredInOneStep : Prop :=
  ∀ (s : State) (agent : Agent) (p : Port) (bits : List Bool) (rest : List Event),
    s.pending = portEvent agent p bits :: rest →
    ∃ resp, portAddress s.cfg.addrWidth bits < 2 ^ s.cfg.addrWidth ∧
      step s = .next { s with
        pending := rest
        requester := agent
        observed := s.observed ++ [⟨agent, ⟨p, portAddress s.cfg.addrWidth bits⟩, resp⟩] } ∧
      resp = answer s.cfg ⟨p, portAddress s.cfg.addrWidth bits⟩ ∧
      ((p = .I ∧ ∃ w, resp = .word w ∧
          (s.cfg.romImage[portAddress s.cfg.addrWidth bits]? = some w ∨ w = 0x000000#24)) ∨
       (p = .S ∧ ∃ id text, resp = .label id text))

/-- R84: a result depends only on the port and what is on it, given the two tables: not on the requester, the earlier
requests, the later ones, the external CPU or the draws. -/
def Obligations.ResultsDependOnPortAndAddressOnly : Prop :=
  ∀ (s t : State) (agent agent' : Agent) (p : Port) (bits : List Bool) (rest rest' : List Event),
    s.cfg = t.cfg → s.pending = portEvent agent p bits :: rest →
    t.pending = portEvent agent' p bits :: rest' →
    ∃ s' t' req resp, step s = .next s' ∧ step t = .next t' ∧
      s'.observed = s.observed ++ [⟨agent, req, resp⟩] ∧
      t'.observed = t.observed ++ [⟨agent', req, resp⟩]

/-- R29, R66, R86: ROM_READ's result does not depend on the range table, SYM_RESOLVE's not on the image, and neither
on the read latency. -/
def Obligations.EachPortReadsOnlyItsOwnTable : Prop :=
  ∀ (s : State) (a : Nat) (table : List SubroutineRange) (image : List Word) (latency : Nat),
    (∃ resp, exec (.romRead a) s =
        .next { s with observed := s.observed ++ [⟨s.requester, ⟨.I, a⟩, resp⟩] } ∧
      exec (.romRead a) { s with cfg := { s.cfg with rangeTable := table, readLatency := latency } } =
        .next { s with cfg := { s.cfg with rangeTable := table, readLatency := latency },
                       observed := s.observed ++ [⟨s.requester, ⟨.I, a⟩, resp⟩] }) ∧
    (∃ resp, exec (.symResolve a) s =
        .next { s with observed := s.observed ++ [⟨s.requester, ⟨.S, a⟩, resp⟩] } ∧
      exec (.symResolve a) { s with cfg := { s.cfg with romImage := image, readLatency := latency } } =
        .next { s with cfg := { s.cfg with romImage := image, readLatency := latency },
                       observed := s.observed ++ [⟨s.requester, ⟨.S, a⟩, resp⟩] })

/-! ### Runs -/

/-- R26: no sequence of steps changes either table. -/
def Obligations.NoRunChangesTheTables : Prop :=
  ∀ (n : Nat) (s s' : State), run n s = .next s' →
    s'.cfg = s.cfg ∧ s'.cfg.romImage = s.cfg.romImage ∧ s'.cfg.rangeTable = s.cfg.rangeTable

/-- Every step keeps the invariant: the configuration stays admitted, and every recorded result is the one the rules
give its request. -/
def Obligations.StepKeepsTheMachineInvariant : Prop :=
  ∀ s s' : State, s.Inv → step s = .next s' → s'.Inv

/-- R27: in any run, two requests of the same port and address get the same result, whoever asks and whatever happens
between them. -/
def Obligations.EqualRequestsGetEqualResultsInEveryRun : Prop :=
  ∀ (n : Nat) (s s' : State), s.observed = [] → run n s = .next s' →
    ∀ o ∈ s'.observed, ∀ o' ∈ s'.observed, o.request = o'.request → o.response = o'.response

/-- R38: whatever requests are in flight, in any order, from any requesters, each gets the result its own rule gives;
a run of as many steps as there are requests answers them all. That they stand in a list and are answered oldest first is
assumption 4, and the address of other than `ADDR_WIDTH` bits is assumption 10. Fetch cycles among the requests are in
FetchCyclesAndRequestsAreAllAnswered. -/
def Obligations.EveryRequestInFlightGetsItsOwnResult : Prop :=
  ∀ (s : State) (reqs : List (Agent × Port × List Bool)),
    s.pending = reqs.map (fun r => portEvent r.1 r.2.1 r.2.2) →
    ∃ s', run reqs.length s = .next s' ∧
      s'.pending = [] ∧ s'.cfg = s.cfg ∧
      s'.observed = s.observed ++ reqs.map (fun r =>
        let a := portAddress s.cfg.addrWidth r.2.2
        ⟨r.1, ⟨r.2.1, a⟩,
          match r.2.1 with
          | .I => .word (romRead s.cfg a)
          | .S => .label (resolve s.cfg.rangeTable a)
              (labelString s.cfg.rangeTable (resolve s.cfg.rangeTable a))⟩)

/-- R70, R38: two orders of the same requests give the same results, in the two orders. The pending list and its order of
service are assumption 4, and the address of other than `ADDR_WIDTH` bits is assumption 10. A fetch cycle's address
depends on what the external CPU did before it, so fetch cycles are in FetchCyclesAndRequestsAreAllAnswered. -/
def Obligations.OrderOfRequestsChangesNoResult : Prop :=
  ∀ (s t : State) (reqs reqs' : List (Agent × Port × List Bool)), reqs.Perm reqs' → s.cfg = t.cfg →
    s.pending = reqs.map (fun r => portEvent r.1 r.2.1 r.2.2) →
    t.pending = reqs'.map (fun r => portEvent r.1 r.2.1 r.2.2) →
    ∃ s' t' os ot, run reqs.length s = .next s' ∧
      run reqs'.length t = .next t' ∧
      s'.observed = s.observed ++ os ∧ t'.observed = t.observed ++ ot ∧ os.Perm ot

/-- R38, R57: any mixture of port requests and fetch cycles is answered in as many steps as there are events: each event
gets one record, for its own agent, with the result the rules give the recorded request; a port request is recorded at
its own port and address, and a fetch cycle as a ROM_READ. The list and its order are assumption 4, the address of other
than `ADDR_WIDTH` bits is assumption 10, and the address of a fetch after a fetch is a free value (assumption 21). -/
def Obligations.FetchCyclesAndRequestsAreAllAnswered : Prop :=
  ∀ s : State, (∀ e ∈ s.pending, ∀ agent w, e ≠ .present agent (.storedWord w)) →
    ∃ s' records, run s.pending.length s = .next s' ∧ s'.pending = [] ∧ s'.cfg = s.cfg ∧
      s'.observed = s.observed ++ records ∧
      List.Forall₂ (fun e o => o.agent = eventAgent e ∧ o.response = answer s.cfg o.request ∧
        o.request.addr < 2 ^ s.cfg.addrWidth ∧
        (∀ agent p bits, e = portEvent agent p bits →
          o.request = ⟨p, portAddress s.cfg.addrWidth bits⟩) ∧
        (e = .fetchCycle → o.request.port = .I)) s.pending records
end

