-- ==== Sys2Proof/Laws/Bits.lean ====
section
/-! SUPPORT. The bits of a request and the number they are. -/

namespace Sys2Proof

@[simp] theorem toBits_length (n v : Nat) : (toBits n v).length = n := by
  induction n with
  | zero => rfl
  | succ n ih => simp [toBits, ih]

theorem ofBits_lt (bs : List Bool) : ofBits bs < 2 ^ bs.length := by
  induction bs with
  | nil => simp [ofBits]
  | cons b bs ih =>
    cases b <;> simp [ofBits, pow_succ] <;> omega

/-- `n` bits of `v` are the number `v` modulo `2 ^ n`. -/
theorem ofBits_toBits (n v : Nat) : ofBits (toBits n v) = v % 2 ^ n := by
  induction n with
  | zero => simp [toBits, ofBits, Nat.mod_one]
  | succ n ih => rw [toBits, ofBits, ih, toBits_length, Nat.mod_pow_succ, Nat.toNat_testBit]; ring

/-- A bit above the number's length reads as zero, and the bits below it are not disturbed by it. -/
theorem toBits_add_two_pow (n k v : Nat) (h : n ≤ k) : toBits n (2 ^ k + v) = toBits n v := by
  induction n with
  | zero => rfl
  | succ n ih =>
    rw [toBits, toBits, ih (by omega), Nat.testBit_two_pow_add_gt (by omega)]

theorem toBits_ofBits (bs : List Bool) : toBits bs.length (ofBits bs) = bs := by
  induction bs with
  | nil => rfl
  | cons b bs ih =>
    have hlt := ofBits_lt bs
    cases b with
    | false =>
      simp only [List.length_cons, toBits, ofBits, Bool.toNat_false, Nat.zero_mul, Nat.zero_add, ih]
      rw [Nat.testBit_lt_two_pow hlt]
    | true =>
      simp only [List.length_cons, toBits, ofBits, Bool.toNat_true, Nat.one_mul,
        toBits_add_two_pow _ _ _ (Nat.le_refl _), ih]
      rw [Nat.testBit_two_pow_add_eq, Nat.testBit_lt_two_pow hlt]
      rfl

theorem portAddress_lt (w : Nat) (bs : List Bool) : portAddress w bs < 2 ^ w :=
  Nat.mod_lt _ (Nat.two_pow_pos w)

/-- On exactly `ADDR_WIDTH` bits the address is the bits' number: nothing is dropped. -/
theorem portAddress_of_length (bs : List Bool) : portAddress bs.length bs = ofBits bs :=
  Nat.mod_eq_of_lt (ofBits_lt bs)

end Sys2Proof
end

