-- ==== Sys2Proof/Laws/Ops.lean ====
section
/-! SUPPORT. What each shared operation does, said once. -/

namespace Sys2Proof.Machine

theorem slot_of_lt (m : Memory) (i : Nat) (h : i < m.length) : slot m i = m[i] := by
  simp [slot, List.getD, h]

theorem romRead_of_lt (c : Config) (a : Nat) (ha : a < c.capacity) :
    romRead c a = slot c.romImage a := if_pos ha

theorem romRead_of_ge (c : Config) (a : Nat) (ha : c.capacity ≤ a) :
    romRead c a = Config.nopWord := if_neg (by omega)

theorem contains_iff (r : SubroutineRange) (a : Nat) :
    contains r a = true ↔ r.start ≤ a ∧ a < r.stop := by
  simp [contains]

theorem contains_eq_false_iff (r : SubroutineRange) (a : Nat) :
    contains r a = false ↔ ¬ (r.start ≤ a ∧ a < r.stop) := by
  rw [← contains_iff, Bool.not_eq_true]

/-- Everything the scan can answer: no entry contains the address, or the first that does. -/
theorem resolveFrom_cases (table : List SubroutineRange) (k a : Nat) :
    (resolveFrom k table a = .unknown ∧ ∀ r ∈ table, contains r a = false) ∨
    (∃ j, ∃ h : j < table.length, resolveFrom k table a = .range (k + j) ∧
      contains table[j] a = true ∧
      ∀ i, ∀ hi : i < j, contains (table[i]'(Nat.lt_trans hi h)) a = false) := by
  induction table generalizing k with
  | nil => exact .inl ⟨rfl, by simp⟩
  | cons r rest ih =>
    by_cases hr : contains r a = true
    · exact .inr ⟨0, by simp, by simp [resolveFrom, hr], by simpa using hr, by simp⟩
    · have hr' : contains r a = false := by simpa using hr
      rcases ih (k + 1) with ⟨h1, h2⟩ | ⟨j, hj, h1, h2, h3⟩
      · refine .inl ⟨by simp [resolveFrom, hr', h1], ?_⟩
        intro t ht
        rcases List.mem_cons.mp ht with rfl | ht
        · exact hr'
        · exact h2 t ht
      · refine .inr ⟨j + 1, by simpa using hj, ?_, by simpa using h2, ?_⟩
        · simp [resolveFrom, hr', h1, Nat.add_comm, Nat.add_left_comm]
        · intro i hi
          cases i with
          | zero => simpa using hr'
          | succ i => simpa using h3 i (by omega)

theorem labelString_range (table : List SubroutineRange) (k : Nat) (h : k < table.length) :
    labelString table (.range k) = table[k].label := by
  simp [labelString, h]

/-- Two entries are disjoint exactly when no address is in both (R25.1). -/
theorem disjointRanges_iff (r t : SubroutineRange) :
    disjointRanges r t = true ↔ ∀ a, ¬ (contains r a = true ∧ contains t a = true) := by
  simp only [disjointRanges, decide_eq_true_eq, contains_iff]
  constructor
  · intro h a ⟨⟨h1, h2⟩, h3, h4⟩
    omega
  · intro h
    by_contra hlt
    exact h (max r.start t.start) ⟨⟨by omega, by omega⟩, by omega, by omega⟩

theorem containerFits_iff (v : Nat) : containerFits v = true ↔ v < 2 ^ 24 := decide_eq_true_iff

theorem boundsFit_iff (addrWidth : Nat) (table : List SubroutineRange) :
    boundsFit addrWidth table = true ↔
      ∀ r ∈ table, r.start ≤ 2 ^ addrWidth ∧ r.stop ≤ 2 ^ addrWidth := by
  simp [boundsFit]

/-- A word survives its container: reading back what R45 puts there gives the word. -/
theorem ofContainer_toNat (w : Word) : ofContainer w.toNat = w := by
  simp [ofContainer]

theorem inContainer_toNat (c : Config) (w : Word) :
    (inContainer c.containerWidth w).toNat = w.toNat := by
  have hw : w.toNat < 2 ^ 24 := w.isLt
  have hc : 2 ^ 24 ≤ 2 ^ c.containerWidth :=
    Nat.pow_le_pow_right (by omega) (Nat.le_add_right 24 c.containerPadding)
  rw [inContainer, BitVec.toNat_setWidth]
  exact Nat.mod_eq_of_lt (by omega)

theorem wordWidth_le_containerWidth (c : Config) : wordWidth ≤ c.containerWidth :=
  Nat.le_add_right _ _

/-- What the builder supplies fits R59 by its type. -/
theorem boundsFit_suppliedEntry {addrWidth : Nat} (table : List (SuppliedRange addrWidth)) :
    boundsFit addrWidth (table.map suppliedEntry) = true := by
  rw [boundsFit_iff]
  intro r hr
  obtain ⟨t, -, rfl⟩ := List.mem_map.mp hr
  exact ⟨Nat.lt_succ_iff.mp t.start.isLt, Nat.lt_succ_iff.mp t.stop.isLt⟩

theorem imageFits_iff {n k : Nat} (image : Vector (BitVec n) k) :
    image.toList.all (fun v => containerFits v.toNat) = true ↔
      ∀ v ∈ image.toList, v.toNat < 2 ^ 24 := by
  simp only [List.all_eq_true, containerFits_iff]

/-- Everything configuration can answer: one of R67's two refusals, each on its ground, or the initial state of the
supplied tables. -/
theorem configure_cases (c : Config) (image : Vector (BitVec c.containerWidth) c.capacity)
    (table : List (SuppliedRange c.addrWidth)) :
    ((∃ v ∈ image.toList, 2 ^ 24 ≤ v.toNat) ∧
      configure c image table = .refused .imageWordTooWide) ∨
    ((∀ v ∈ image.toList, v.toNat < 2 ^ 24) ∧ rangeTableWF (table.map suppliedEntry) = false ∧
      configure c image table = .refused .rangeTableIllFormed) ∨
    ((∀ v ∈ image.toList, v.toNat < 2 ^ 24) ∧ rangeTableWF (table.map suppliedEntry) = true ∧
      configure c image table = .next (State.initial { c with
        romImage := image.toList.map fun v => ofContainer v.toNat
        rangeTable := table.map suppliedEntry })) := by
  unfold configure
  split_ifs with hImage hTable
  · rw [← Bool.not_eq_true, imageFits_iff] at hImage
    push Not at hImage
    exact .inl ⟨hImage, rfl⟩
  · rw [Bool.not_eq_false, imageFits_iff] at hImage
    exact .inr (.inl ⟨hImage, hTable, rfl⟩)
  · rw [Bool.not_eq_false, imageFits_iff] at hImage
    rw [Bool.not_eq_false] at hTable
    exact .inr (.inr ⟨hImage, hTable, rfl⟩)

/-- Leaving out unreachable slots keeps the image's form. -/
theorem truncated_wf (c : Config) (n : Nat) (h : Memory.wf c.capacity c.romImage) :
    Memory.wf (truncated c n).capacity (truncated c n).romImage := by
  simp [truncated, Memory.wf, h, Nat.min_comm]

@[simp] theorem paddingImage_length : Config.paddingImage.length = 7 := List.length_replicate

@[simp] theorem mainImage_length : Config.mainImage.length = 9 := rfl

@[simp] theorem unusedImage_length : Config.unusedImage.length = 1007 := List.length_replicate

theorem hardware_image_wf : Memory.wf Config.hardware.capacity Config.hardware.romImage := by
  simp [Memory.wf, Config.hardware, Config.hardwareImage]

theorem reset_memory_wf : Memory.wf State.reset.cfg.capacity State.reset.cfg.romImage :=
  hardware_image_wf

end Sys2Proof.Machine
end

