-- ==== Sys2Proof/Laws/PerInstr.lean ====
section
/-! SUPPORT. Per instruction: an encoding has exactly the number of bits its format gives it. -/

namespace Sys2Proof.Laws

/-- How many bits stand before the decoder. -/
def encodedBits : Encoded → Nat
  | .onPort _ bits => bits.length
  | .storedWord _ => wordWidth

/-- The bits of a row's format: AREQ has ADDR_WIDTH bits (R44, R46), W24 has 24 (R51). -/
def formatBits (addrWidth : Nat) : Instr → Nat
  | .romRead _ => addrWidth
  | .symResolve _ => addrWidth
  | .nopWord => wordWidth
  | .resetVectorJumpWord => wordWidth

/-- The encoding of `i` has its format's number of bits, at every address width. -/
def EncodedLength.Statement (i : Instr) : Prop :=
  ∀ addrWidth, encodedBits (encode addrWidth i) = formatBits addrWidth i

theorem EncodedLength.romRead (a : Nat) : EncodedLength.Statement (.romRead a) :=
  fun w => toBits_length w a

theorem EncodedLength.symResolve (a : Nat) : EncodedLength.Statement (.symResolve a) :=
  fun w => toBits_length w a

theorem EncodedLength.nopWord : EncodedLength.Statement .nopWord := fun _ => rfl

theorem EncodedLength.resetVectorJumpWord : EncodedLength.Statement .resetVectorJumpWord :=
  fun _ => rfl

end Sys2Proof.Laws
end

