-- ==== Sys2Proof/Laws/State.lean ====
section
/-! SUPPORT. One lemma per field per update, so that no proof unfolds a record update. -/

namespace Sys2Proof.Machine

variable (s : State) (r : Request) (resp : Response) (pc : Pc) (e : Event) (c : Config) (nbits w : Nat)

@[simp] theorem deliver_cfg : (deliver s r resp).cfg = s.cfg := rfl
@[simp] theorem deliver_pending : (deliver s r resp).pending = s.pending := rfl
@[simp] theorem deliver_requester : (deliver s r resp).requester = s.requester := rfl
@[simp] theorem deliver_cpuPc : (deliver s r resp).cpuPc = s.cpuPc := rfl
@[simp] theorem deliver_draws : (deliver s r resp).draws = s.draws := rfl
@[simp] theorem deliver_observed :
    (deliver s r resp).observed = s.observed ++ [⟨s.requester, r, resp⟩] := rfl

@[simp] theorem moveCpuPc_cfg : (moveCpuPc s pc).cfg = s.cfg := rfl
@[simp] theorem moveCpuPc_pending : (moveCpuPc s pc).pending = s.pending := rfl
@[simp] theorem moveCpuPc_requester : (moveCpuPc s pc).requester = s.requester := rfl
@[simp] theorem moveCpuPc_observed : (moveCpuPc s pc).observed = s.observed := rfl
@[simp] theorem moveCpuPc_cpuPc : (moveCpuPc s pc).cpuPc = pc := rfl
@[simp] theorem moveCpuPc_draws : (moveCpuPc s pc).draws = s.draws := rfl

@[simp] theorem countDraw_cfg : (countDraw s).cfg = s.cfg := rfl
@[simp] theorem countDraw_pending : (countDraw s).pending = s.pending := rfl
@[simp] theorem countDraw_requester : (countDraw s).requester = s.requester := rfl
@[simp] theorem countDraw_observed : (countDraw s).observed = s.observed := rfl
@[simp] theorem countDraw_cpuPc : (countDraw s).cpuPc = s.cpuPc := rfl
@[simp] theorem countDraw_draws : (countDraw s).draws = s.draws + 1 := rfl

variable (agent : Agent) (what : Encoded) (rest : List Event)

@[simp] theorem takeEvent_cfg : (takeEvent s e rest).cfg = s.cfg := by cases e <;> rfl
@[simp] theorem takeEvent_pending : (takeEvent s e rest).pending = rest := by cases e <;> rfl
@[simp] theorem takeEvent_requester : (takeEvent s e rest).requester = eventAgent e := by
  cases e <;> rfl
@[simp] theorem takeEvent_observed : (takeEvent s e rest).observed = s.observed := by cases e <;> rfl
@[simp] theorem takeEvent_present_cpuPc :
    (takeEvent s (.present agent what) rest).cpuPc = s.cpuPc := rfl
@[simp] theorem takeEvent_present_draws :
    (takeEvent s (.present agent what) rest).draws = s.draws := rfl
@[simp] theorem takeEvent_fetchCycle_cpuPc :
    (takeEvent s .fetchCycle rest).cpuPc = Config.pcAfterFetch s.draws := rfl
@[simp] theorem takeEvent_fetchCycle_draws :
    (takeEvent s .fetchCycle rest).draws = s.draws + 1 := rfl

@[simp] theorem submit_cfg : (submit s e).cfg = s.cfg := rfl
@[simp] theorem submit_pending : (submit s e).pending = s.pending ++ [e] := rfl
@[simp] theorem submit_requester : (submit s e).requester = s.requester := rfl
@[simp] theorem submit_observed : (submit s e).observed = s.observed := rfl
@[simp] theorem submit_cpuPc : (submit s e).cpuPc = s.cpuPc := rfl
@[simp] theorem submit_draws : (submit s e).draws = s.draws := rfl

@[simp] theorem initial_cfg : (State.initial c).cfg = c := rfl
@[simp] theorem initial_pending : (State.initial c).pending = [] := rfl
@[simp] theorem initial_requester : (State.initial c).requester = .fetchStage := rfl
@[simp] theorem initial_observed : (State.initial c).observed = [] := rfl
@[simp] theorem initial_cpuPc : (State.initial c).cpuPc = 0 := rfl
@[simp] theorem initial_draws : (State.initial c).draws = 0 := rfl

@[simp] theorem withFetchWord_cfg : (s.withFetchWord nbits w).cfg = s.cfg := rfl
@[simp] theorem withFetchWord_pending :
    (s.withFetchWord nbits w).pending =
      .present .fetchStage (tableEncoded nbits w) :: s.pending := rfl
@[simp] theorem withFetchWord_requester : (s.withFetchWord nbits w).requester = s.requester := rfl
@[simp] theorem withFetchWord_observed : (s.withFetchWord nbits w).observed = s.observed := rfl
@[simp] theorem withFetchWord_cpuPc : (s.withFetchWord nbits w).cpuPc = s.cpuPc := rfl
@[simp] theorem withFetchWord_draws : (s.withFetchWord nbits w).draws = s.draws := rfl

end Sys2Proof.Machine
end

