-- ==== Sys2Proof/Laws/Step.lean ====
section
/-! SUPPORT. What one step can do, said once. -/

namespace Sys2Proof.Machine

/-- The four things a decoded instruction can do. -/
theorem exec_next_cases {i : Instr} {s t : State} (h : exec i s = .next t) :
    (∃ a, i = .romRead a ∧ t = deliver s ⟨.I, a⟩ (.word (romRead s.cfg a))) ∨
    (∃ a, i = .symResolve a ∧ t = deliver s ⟨.S, a⟩ (symbolResponse s.cfg a)) ∨
    (i = .nopWord ∧ t = countDraw (moveCpuPc s (Config.pcAfterNoOp s.draws))) ∨
    (i = .resetVectorJumpWord ∧ t = moveCpuPc s Config.jumpTarget) := by
  cases i with
  | romRead a => exact .inl ⟨a, rfl, by injection h with h; exact h.symm⟩
  | symResolve a => exact .inr (.inl ⟨a, rfl, by injection h with h; exact h.symm⟩)
  | nopWord => exact .inr (.inr (.inl ⟨rfl, by injection h with h; exact h.symm⟩))
  | resetVectorJumpWord =>
    exact .inr (.inr (.inr ⟨rfl, by injection h with h; exact h.symm⟩))

/-- An instruction that runs to a next state leaves the tables, the inputs and the requester alone (R26). -/
theorem exec_next_frame {i : Instr} {s t : State} (h : exec i s = .next t) :
    t.cfg = s.cfg ∧ t.pending = s.pending ∧ t.requester = s.requester := by
  obtain ⟨a, -, rfl⟩ | ⟨a, -, rfl⟩ | ⟨-, rfl⟩ | ⟨-, rfl⟩ := exec_next_cases h <;> simp

/-- A decoded address is one of the address type, whatever stood on the port. -/
theorem decode_wf {w : Nat} {e : Encoded} {i : Instr} (h : decode w e = .ok i) : i.wf w = true := by
  cases e with
  | onPort p bits =>
    cases p <;> simp only [decode, Except.ok.injEq] at h <;> subst h <;>
      simp [Instr.wf, portAddress_lt]
  | storedWord x =>
    simp only [decode] at h
    split at h
    · cases h; rfl
    · split at h
      · cases h; rfl
      · cases h

/-- Everything a step to a next state can be: nothing to do, or the oldest event's instruction run. -/
theorem step_next_cases {s t : State} (h : step s = .next t) :
    (s.pending = [] ∧ t = s) ∨
    (∃ e rest i, s.pending = e :: rest ∧ decode s.cfg.addrWidth (presented e s) = .ok i ∧
      exec i (takeEvent s e rest) = .next t) := by
  unfold step at h
  split at h
  · exact .inl ⟨‹_›, by injection h with h; exact h.symm⟩
  · split at h
    · exact .inr ⟨_, _, _, ‹_›, ‹_›, h⟩
    · cases h

@[simp] theorem run_zero (s : State) : run 0 s = .next s := rfl

theorem coreRun_of_next (M : Host.Core) (n : Nat) (s t : M.State) (h : M.step s = .next t) :
    M.run (n + 1) s = M.run n t := by
  simp only [Host.Core.run, h]

theorem coreRun_of_refused (M : Host.Core) (n : Nat) (s : M.State) (r : M.Refusal)
    (h : M.step s = .refused r) : M.run (n + 1) s = .refused r := by
  simp only [Host.Core.run, h]

theorem run_succ_of_next {s t : State} (n : Nat) (h : step s = .next t) :
    run (n + 1) s = run n t :=
  coreRun_of_next Sys2Proof.core n s t h

/-- A run that reaches a next state took its first step to one. -/
theorem run_succ_next_cases {s t : State} {n : Nat} (h : run (n + 1) s = .next t) :
    ∃ u, step s = .next u ∧ run n u = .next t := by
  cases hs : step s with
  | next u => exact ⟨u, rfl, run_succ_of_next n hs ▸ h⟩
  | fault r => cases r
  | refused r =>
    have hr : run (n + 1) s = .refused r := coreRun_of_refused Sys2Proof.core n s r hs
    rw [hr] at h
    cases h

end Sys2Proof.Machine
end

