-- ==== Sys2Proof/Machine/Listing.lean ====
section
/-! DEFINITION. The spec's own written form of requests, results and tables (R52). It is not semantic (D12): no step
reads it. -/

namespace Sys2Proof.Machine

/-- One upper-case hexadecimal digit. -/
def hexDigit (n : Nat) : Char :=
  if n < 10 then Char.ofNat (48 + n) else Char.ofNat (55 + n)

/-- A word as `0x` and six hexadecimal digits, the most significant first (R12, R52). -/
def wordText (w : Word) : String :=
  "0x" ++ String.ofList ([20, 16, 12, 8, 4, 0].map fun lo => hexDigit ((w.toNat >>> lo) % 16))

/-- `READ a` or `RESOLVE a` (R52). -/
def requestText (r : Request) : String :=
  match r.port with
  | .I => "READ " ++ toString r.addr
  | .S => "RESOLVE " ++ toString r.addr

/-- The port's letter, a colon, and the address bits from the most significant down (R52). -/
def encodedText (p : Port) (bits : List Bool) : String :=
  (match p with | .I => "I:" | .S => "S:") ++
    String.ofList (bits.map fun b => if b then '1' else '0')

/-- A result, as it stands after the arrow (R52). -/
def responseText (resp : Response) : String :=
  match resp with
  | .word w => wordText w
  | .label (.range k) text => "range " ++ toString k ++ " \"" ++ text ++ "\""
  | .label .unknown text => "unknown \"" ++ text ++ "\""

/-- A request with its result (R52). -/
def observationText (o : Observation) : String :=
  requestText o.request ++ " -> " ++ responseText o.response

/-- A ROM image listing line (R52). -/
def imageLine (m : Memory) (i : Nat) : String :=
  "@" ++ toString i ++ ": " ++ wordText (slot m i)

/-- A range table line (R52). -/
def rangeLine (k : Nat) (r : SubroutineRange) : String :=
  toString k ++ ": " ++ r.label ++ " [" ++ toString r.start ++ ", " ++ toString r.stop ++ ")"

end Sys2Proof.Machine
end

