-- ==== Sys2Proof/Tests/Slice0.lean ====
section
/-! SUPPORT. The model's own tests. Expected results come from spec/95_test_vectors.md, whose vector numbers stand in the
comments, or from the encodings of 30_encoding.md written out by hand. -/

namespace Sys2Proof.Tests

open Sys2Proof Sys2Proof.Machine

/-! ### Small machines -/

/-- A machine of four slots with a given range table, at a given address width. -/
def smallConfig (addrWidth : Nat) (table : List SubroutineRange) : Config where
  addrWidth := addrWidth
  capacity := 4
  romImage := [0x160800, 0x000000, 0x000001, 0xABCDEF]
  rangeTable := table
  containerPadding := 8
  readLatency := 0

/-- The state before the first request, with events to come. -/
def stateWith (c : Config) (events : List Event) : State :=
  { State.initial c with pending := events }

/-- Overlapping ranges, S-9. -/
def overlapping : List SubroutineRange := [⟨"A", 0, 10⟩, ⟨"B", 5, 15⟩]

/-- Ranges with a gap, S-14. -/
def gapped : List SubroutineRange := [⟨"X", 0, 4⟩, ⟨"Y", 10, 12⟩]

/-- An empty entry before a nonempty one, S-17. -/
def emptyFirst : List SubroutineRange := [⟨"E", 5, 5⟩, ⟨"F", 5, 6⟩]

/-! ### Well-formedness: each check refuses an ill-formed term -/

theorem test_wf_refuses_wide_addresses :
    Instr.wf 8 (.romRead 256) = false ∧ Instr.wf 8 (.symResolve 256) = false ∧
    Instr.wf 8 (.romRead 255) = true ∧ Instr.wf 8 (.symResolve 255) = true := by decide

/-- S-WF-2, S-WF-3 refused, S-WF-1, S-WF-4, S-WF-5, S-17 to S-20 admitted. -/
theorem test_rangeTableWF_fixtures :
    rangeTableWF overlapping = false ∧ rangeTableWF [⟨"main", 8, 17⟩, ⟨"RESET_vect", 0, 8⟩] = false ∧
    rangeTableWF Config.hardwareRanges = true ∧
    rangeTableWF [⟨"P", 0, 8⟩, ⟨"Q", 8, 8⟩, ⟨"R", 8, 17⟩] = true ∧
    rangeTableWF [⟨"A", 0, 8⟩, ⟨"A", 8, 17⟩] = true ∧ rangeTableWF emptyFirst = true ∧
    rangeTableWF [⟨"I", 9, 3⟩] = true ∧ rangeTableWF [] = true ∧
    rangeTableWF [⟨"ALL", 0, 256⟩] = true := by decide

/-- R23: a container's upper bits. R59: an end of 256 fits, 257 does not (D9). -/
theorem test_container_and_bound_checks :
    containerFits 0xFFFFFF = true ∧ containerFits 0x1000000 = false ∧
    boundsFit 8 [⟨"ALL", 0, 256⟩] = true ∧ boundsFit 8 [⟨"W", 0, 257⟩] = false := by decide

/-! ### Decoding: words written out from R44, R46, R50, R52 -/

/-- R-1, R-5, R-7, R-9. -/
theorem test_decode_romRead :
    decode 8 (.onPort .I [false, false, false, false, false, false, false, false]) = .ok (.romRead 0) ∧
    decode 8 (.onPort .I [false, false, false, true, false, false, false, false]) = .ok (.romRead 16) ∧
    decode 8 (.onPort .I [true, false, false, false, false, false, false, false]) = .ok (.romRead 128) ∧
    decode 8 (.onPort .I [true, true, true, true, true, true, true, true]) = .ok (.romRead 255) :=
  ⟨rfl, rfl, rfl, rfl⟩

/-- S-3, S-7. -/
theorem test_decode_symResolve :
    decode 8 (.onPort .S [false, false, false, false, true, false, false, false]) = .ok (.symResolve 8) ∧
    decode 8 (.onPort .S [false, true, true, false, false, true, false, false]) = .ok (.symResolve 100) :=
  ⟨rfl, rfl⟩

theorem test_decode_storedWords :
    decode 8 (.storedWord 0b000000000000000000000000#24) = .ok .nopWord ∧
    decode 8 (.storedWord 0b000101100000100000000000#24) = .ok .resetVectorJumpWord ∧
    decode 8 (.storedWord 0b000101100000100000000001#24) =
      .error (.opaqueWord 0b000101100000100000000001#24) := ⟨rfl, rfl, rfl⟩

/-- The opcode table's numbering, on this hardware. -/
theorem test_decodeTableWord :
    decodeTableWord 8 0b00010001 = some (.romRead 17) ∧
    decodeTableWord 24 0x000000 = some .nopWord ∧
    decodeTableWord 24 0x160800 = some .resetVectorJumpWord ∧
    decodeTableWord 24 0x160801 = none := ⟨rfl, rfl, rfl, rfl⟩

/-- `READ 3` written back: `I:00000011`. -/
theorem test_encode_romRead :
    encode 8 (.romRead 3) = .onPort .I [false, false, false, false, false, false, true, true] := by
  decide

/-- R-11: the fields of 0x160800. -/
theorem test_fields_of_the_reset_vector :
    wordField 0x160800#24 23 16 = 0x16 ∧ wordField 0x160800#24 15 8 = 0x08 ∧
    wordField 0x160800#24 7 0 = 0x00 ∧
    (inContainer 32 0x160800#24).toNat = 0x160800 := by decide

/-! ### One step each -/

/-- P1, step 1: the first fetch of the external CPU reads the reset vector. -/
theorem test_first_fetch_reads_the_reset_vector :
    ∃ pc, step (stateWith Config.hardware [.fetchCycle]) =
      .next { State.reset with
        cpuPc := pc
        draws := 1
        observed := [⟨.fetchStage, ⟨.I, 0⟩, .word 0x160800⟩] } := ⟨_, rfl⟩

/-- R-16: zero, neither the word at CAPACITY - 1 nor a wrapped one. -/
theorem test_romRead_out_of_bounds_is_zero :
    exec (.romRead 4) (stateWith (smallConfig 11 []) []) =
      .next { stateWith (smallConfig 11 []) [] with
        observed := [⟨.fetchStage, ⟨.I, 4⟩, .word 0x000000⟩] } := rfl

/-- S-3: the end of the first range is excluded and the start of the second included. -/
theorem test_symResolve_at_the_start_of_main :
    step (stateWith Config.hardware [portEvent .diagnostics .S (toBits 8 8)]) =
      .next { State.reset with
        requester := .diagnostics
        observed := [⟨.diagnostics, ⟨.S, 8⟩, .label (.range 1) "main"⟩] } := rfl

/-- S-21, S-22: a range labelled `Unknown` stays distinct from the sentinel. -/
theorem test_symResolve_sentinel_is_distinct :
    symbolResponse (smallConfig 8 [⟨"Unknown", 0, 4⟩]) 0 = .label (.range 0) "Unknown" ∧
    symbolResponse (smallConfig 8 [⟨"Unknown", 0, 4⟩]) 4 = .label .unknown "Unknown" := ⟨rfl, rfl⟩

/-- The no-op leaves all but the external program counter and the draw count as they are. -/
theorem test_nopWord_runs_after_reset :
    ∃ pc, step (State.reset.withFetchWord 24 0x000000) =
      .next { State.reset with cpuPc := pc, draws := 1 } := ⟨_, rfl⟩

/-- P1: the jump goes to address 8. -/
theorem test_resetVectorJumpWord_runs_after_reset :
    step (State.reset.withFetchWord 24 0x160800) = .next { State.reset with cpuPc := 8 } := rfl

/-! ### The searches -/

/-- S-9 to S-13. -/
theorem test_resolve_first_match :
    resolve overlapping 5 = .range 0 ∧ resolve overlapping 9 = .range 0 ∧
    resolve overlapping 10 = .range 1 ∧ resolve overlapping 15 = .unknown ∧
    resolve [⟨"B", 5, 15⟩, ⟨"A", 0, 10⟩] 5 = .range 0 := by decide

/-- S-14 to S-20. -/
theorem test_resolve_gaps_and_empty_ranges :
    resolve gapped 4 = .unknown ∧ resolve gapped 10 = .range 1 ∧ resolve gapped 12 = .unknown ∧
    resolve emptyFirst 5 = .range 1 ∧ resolve [⟨"I", 9, 3⟩] 5 = .unknown ∧
    resolve [] 0 = .unknown ∧ resolve [⟨"ALL", 0, 256⟩] 255 = .range 0 := by decide

/-- B-1 to B-5: the binary search agrees on well-formed tables without empty entries, and not beyond. -/
theorem test_binary_search_fixtures :
    resolveBinary Config.hardwareRanges 11 = .range 1 ∧
    resolveBinary Config.hardwareRanges 17 = .unknown ∧ resolveBinary gapped 5 = .unknown ∧
    resolveBinary overlapping 7 = .range 1 ∧
    resolveBinary [⟨"A", 0, 10⟩, ⟨"E", 5, 5⟩] 7 = .unknown := by decide

/-! ### Consumer-side conditions -/

/-- R57, R62, R47: a no-op word and an unknown label are seen in results, and a range called `Unknown` is not one. -/
theorem test_consumer_conditions :
    isNoOpResult (.word 0x000000) = true ∧ isNoOpResult (.word 0x160800) = false ∧
    isUnknownResult (.label .unknown "Unknown") = true ∧
    isUnknownResult (.label (.range 0) "Unknown") = false := by decide

/-! ### The written form -/

/-- R52's own examples, and the first line of the image. -/
theorem test_written_form :
    observationText ⟨.fetchStage, ⟨.I, 0⟩, .word 0x160800⟩ = "READ 0 -> 0x160800" ∧
    observationText ⟨.diagnostics, ⟨.S, 8⟩, .label (.range 1) "main"⟩ =
      "RESOLVE 8 -> range 1 \"main\"" ∧
    encodedText .S (toBits 8 8) = "S:00001000" ∧ wordText 0xABCDEF = "0xABCDEF" ∧
    rangeLine 1 ⟨"main", 8, 17⟩ = "1: main [8, 17)" := by decide

/-! ### Witnesses: concrete states and operands that meet the hypotheses of the statements -/

/-- A good image of four 32-bit containers, and one with a bit above bit 23. -/
def goodImage : Vector (BitVec 32) 4 := #v[0x160800, 0, 1, 0xFFFFFF]
def wideImage : Vector (BitVec 32) 4 := #v[0x160800, 0, 1, 0x1000000]

/-- Range tables as supplied: one that passes, and the one of P4. -/
def goodTable : List (SuppliedRange 8) := [⟨"X", 0, 4⟩, ⟨"ALL", 10, 256⟩]
def brokenTable : List (SuppliedRange 8) := [⟨"RESET_vect", 0, 8⟩, ⟨"main", 4, 17⟩]

/-- ConfigureBuildsTheResetMachine: the supplied parts exist. -/
theorem witness_configure_hardware :
    ∃ (image : Vector (BitVec Config.hardware.containerWidth) Config.hardware.capacity)
      (table : List (SuppliedRange Config.hardware.addrWidth)),
      image.toList.map BitVec.toNat = Config.hardware.romImage.map BitVec.toNat ∧
      table.map suppliedEntry = Config.hardware.rangeTable := by
  refine ⟨⟨(Config.hardware.romImage.map (inContainer _)).toArray, ?_⟩,
    [⟨"RESET_vect", ⟨0, by decide⟩, ⟨8, by decide⟩⟩, ⟨"main", ⟨8, by decide⟩, ⟨17, by decide⟩⟩], ?_, rfl⟩
  · rw [List.size_toArray, List.length_map]
    exact hardware_image_wf
  · simp only [Vector.toList, List.map_map]
    exact List.map_congr_left fun w _ => inContainer_toNat _ w

/-- ConfigureAdmitsExactlyWellFormedParts: a configuration that is admitted. -/
theorem witness_configure_admits :
    ∃ s, configure (smallConfig 8 []) goodImage goodTable = .next s := ⟨_, rfl⟩

/-- ConfigureRefusesBadImagesAndTables, SymResolveFirstMatchWins' second clause: a word with bit 24 set, and the table of
P4. -/
theorem witness_configure_refuses :
    (∃ v ∈ wideImage.toList, 2 ^ 24 ≤ v.toNat) ∧ (∀ v ∈ goodImage.toList, v.toNat < 2 ^ 24) ∧
    rangeTableWF (brokenTable.map suppliedEntry) = false :=
  ⟨⟨0x1000000, by simp [wideImage], by simp⟩, by simp [goodImage], by decide⟩

/-- RomReadInBoundsIsTheStoredWord: the first and the last slot of the reset machine. -/
theorem witness_romRead_in_bounds :
    0 < State.reset.cfg.capacity ∧ 0 < State.reset.cfg.romImage.length ∧
    1023 < State.reset.cfg.capacity ∧ 1023 < State.reset.cfg.romImage.length := by
  have h : State.reset.cfg.romImage.length = 1024 := reset_memory_wf
  have hc : State.reset.cfg.capacity = 1024 := rfl
  omega

/-- RomReadOutOfBoundsIsZero: the first address out of bounds. -/
theorem witness_romRead_out_of_bounds : State.reset.cfg.capacity ≤ 1024 := by decide

/-- RomReadResultTableOfThisHardware, clause 1 and both ends of clause 2, on the reset machine. -/
theorem witness_romRead_table_low :
    State.reset.cfg = Config.hardware ∧ romRead State.reset.cfg 0 = 0x160800 ∧
    romRead State.reset.cfg 1 = 0x000000 ∧ romRead State.reset.cfg 7 = 0x000000 := ⟨rfl, rfl, rfl, rfl⟩

/-- RomReadResultTableOfThisHardware, both ends of clauses 3 and 4. -/
theorem witness_romRead_table_high :
    romRead State.reset.cfg 8 = Config.mainWords 0 ∧ romRead State.reset.cfg 16 = Config.mainWords 8 ∧
    romRead State.reset.cfg 17 = 0x000000 ∧ romRead State.reset.cfg 255 = 0x000000 :=
  ⟨rfl, rfl, rfl, rfl⟩

/-- FirstSlotsSufficeForReachableReads: the last reachable address, and a machine that loses slots. -/
theorem witness_truncation :
    255 < 2 ^ 8 ∧ (truncated Config.hardware 256).capacity = 256 ∧ Config.hardware.capacity = 1024 := by
  decide

/-- SymResolveFirstMatchWins: the first clause at the second entry, the second clause on the same table. -/
theorem witness_first_match :
    contains ⟨"B", 5, 15⟩ 10 = true ∧ contains ⟨"A", 0, 10⟩ 10 = false ∧
    overlapping = [⟨"A", 0, 10⟩, ⟨"B", 5, 15⟩] ∧ rangeTableWF overlapping = false := by decide

/-- SymResolveNoMatchIsUnknown: the end of the last range of this hardware. -/
theorem witness_no_match :
    ∀ r ∈ State.reset.cfg.rangeTable, ¬ (r.start ≤ 17 ∧ 17 < r.stop) := by decide

/-- SymResolveResultTableOfThisHardware: both ends of each clause, on the reset machine (S-1 to S-8). -/
theorem witness_symResolve_table :
    State.reset.cfg = Config.hardware ∧
    symbolResponse State.reset.cfg 0 = .label (.range 0) "RESET_vect" ∧
    symbolResponse State.reset.cfg 7 = .label (.range 0) "RESET_vect" ∧
    symbolResponse State.reset.cfg 8 = .label (.range 1) "main" ∧
    symbolResponse State.reset.cfg 16 = .label (.range 1) "main" ∧
    symbolResponse State.reset.cfg 17 = .label .unknown "Unknown" ∧
    symbolResponse State.reset.cfg 255 = .label .unknown "Unknown" :=
  ⟨rfl, rfl, rfl, rfl, rfl, rfl, rfl⟩

/-- AnySearchOnAWellFormedTableAgrees: entry 1 of this hardware's table contains 16. -/
theorem witness_any_search :
    1 < State.reset.cfg.rangeTable.length ∧ rangeTableWF State.reset.cfg.rangeTable = true ∧
    (State.reset.cfg.rangeTable[1]?.map (fun r => decide (r.start ≤ 16 ∧ 16 < r.stop))) = some true := by
  decide

/-- BinarySearchGivesTheFirstMatch: this hardware's table. -/
theorem witness_binary_search :
    rangeTableWF Config.hardwareRanges = true ∧ ∀ r ∈ Config.hardwareRanges, r.start < r.stop := by
  decide

/-- StoredWordsLeaveTheBlockAlone: both instructions reach a next state from reset. -/
theorem witness_stored_words :
    (∃ t, exec .nopWord State.reset = .next t) ∧ (∃ t, exec .resetVectorJumpWord State.reset = .next t) :=
  ⟨⟨_, rfl⟩, ⟨_, rfl⟩⟩

/-- OtherStoredWordsAreRefusedByName: one bit away from the reset vector. -/
theorem witness_opaque_word :
    (stateWith Config.hardware [.present .fetchStage (.storedWord 0x160801)]).pending =
      .present .fetchStage (.storedWord 0x160801) :: [] ∧
    (0x160801#24 : Word) ≠ 0x000000#24 ∧ (0x160801#24 : Word) ≠ 0x160800#24 := by decide

/-- EveryPortValueDecodesToItsOperation, DecodeOfEncodeIsTheInstruction: the largest address. -/
theorem witness_encoding :
    (toBits 8 255).length = 8 ∧ 255 < 2 ^ 8 ∧ Instr.wf 8 (.symResolve 255) = true := by decide

/-- EncodeOfDecodeIsTheEncoding: exactly eight bits, decoded. -/
theorem witness_encode_of_decode :
    [false, false, false, true, false, false, false, true].length = 8 ∧
    decode 8 (.onPort .S [false, false, false, true, false, false, false, true]) = .ok (.symResolve 17) :=
  ⟨rfl, rfl⟩

/-- StepRunsTheDecodedInstruction's first clause, EveryPortRequestIsAnsweredInOneStep: one request pending. -/
theorem witness_step_runs :
    (stateWith Config.hardware [portEvent .diagnostics .I (toBits 8 9)]).pending =
      portEvent .diagnostics .I (toBits 8 9) :: [] ∧
    decode 8 (presented (portEvent .diagnostics .I (toBits 8 9)) State.reset) = .ok (.romRead 9) :=
  ⟨rfl, rfl⟩

/-- StepWithoutEventsChangesNothing: the reset state. -/
theorem witness_no_events : State.reset.pending = [] := rfl

/-- FetchCycleReadsAtTheProgramCounter, StepRunsTheDecodedInstruction's second clause: a fetch at the largest program
counter. -/
theorem witness_fetch_cycle :
    ∃ s : State, s.pending = .fetchCycle :: [] ∧ 8 ≤ s.cfg.addrWidth ∧ s.cpuPc = 255 ∧
      decode s.cfg.addrWidth (.onPort .I (toBits 8 s.cpuPc.toNat)) = .ok (.romRead 255) :=
  ⟨{ stateWith Config.hardware [.fetchCycle] with cpuPc := 255 }, rfl, Nat.le_refl 8, rfl, rfl⟩

/-- StepNeverFaultsAndNeverRefusesARequest: the refusal it speaks about happens. -/
theorem witness_step_refuses :
    step (stateWith Config.hardware [.present .fetchStage (.storedWord 0x160801)]) =
      .refused (.opaqueWord 0x160801) := rfl

/-- ResultsDependOnPortAndAddressOnly: two states that differ in requester, later events, program counter and draws. -/
theorem witness_two_states :
    ∃ s t : State, s ≠ t ∧ s.cfg = t.cfg ∧
      s.pending = portEvent .fetchStage .S (toBits 8 8) :: [] ∧
      t.pending = portEvent .diagnostics .S (toBits 8 8) :: [.fetchCycle] :=
  ⟨stateWith (smallConfig 8 gapped) [portEvent .fetchStage .S (toBits 8 8)],
    { stateWith (smallConfig 8 gapped) [portEvent .diagnostics .S (toBits 8 8), .fetchCycle] with
      cpuPc := 3, draws := 7 }, by decide, rfl, rfl, rfl⟩

/-- StepKeepsTheMachineInvariant: a state that meets the invariant and takes a step that answers a request. -/
theorem witness_invariant_step :
    (stateWith Config.hardware [.fetchCycle]).Inv ∧
    ∃ s', step (stateWith Config.hardware [.fetchCycle]) = .next s' ∧ s'.observed.length = 1 :=
  ⟨⟨⟨hardware_image_wf, by decide, by decide⟩, by intro o h; cases h⟩, _, rfl, rfl⟩

/-- NoRunChangesTheTables, EqualRequestsGetEqualResultsInEveryRun: the same request twice, from two requesters (R-10). -/
theorem witness_repeated_request :
    ∃ s s' : State, s.observed = [] ∧ run 2 s = .next s' ∧
      s'.observed = [⟨.fetchStage, ⟨.I, 0⟩, .word 0x160800⟩, ⟨.diagnostics, ⟨.I, 0⟩, .word 0x160800⟩] :=
  ⟨stateWith Config.hardware
    [portEvent .fetchStage .I (toBits 8 0), portEvent .diagnostics .I (toBits 8 0)], _, rfl, rfl, rfl⟩

/-- EveryRequestInFlightGetsItsOwnResult, OrderOfRequestsChangesNoResult: two requests in both orders. -/
theorem witness_two_orders :
    ∃ (s t : State) (reqs reqs' : List (Agent × Port × List Bool)), reqs.Perm reqs' ∧ reqs ≠ reqs' ∧
      s.cfg = t.cfg ∧ s.pending = reqs.map (fun r => portEvent r.1 r.2.1 r.2.2) ∧
      t.pending = reqs'.map (fun r => portEvent r.1 r.2.1 r.2.2) :=
  ⟨stateWith Config.hardware [portEvent .fetchStage .I (toBits 8 8), portEvent .diagnostics .S (toBits 8 8)],
    stateWith Config.hardware [portEvent .diagnostics .S (toBits 8 8), portEvent .fetchStage .I (toBits 8 8)],
    [(.fetchStage, .I, toBits 8 8), (.diagnostics, .S, toBits 8 8)],
    [(.diagnostics, .S, toBits 8 8), (.fetchStage, .I, toBits 8 8)],
    List.Perm.swap _ _ _, by decide, rfl, rfl, rfl⟩

/-- FetchCyclesAndRequestsAreAllAnswered: a fetch cycle and a request, and no stored word. -/
theorem witness_fetch_and_request :
    ∀ e ∈ (stateWith Config.hardware [.fetchCycle, portEvent .diagnostics .S (toBits 8 0)]).pending,
      ∀ agent w, e ≠ .present agent (.storedWord w) := by
  intro e he agent w h
  subst h
  simp [stateWith, portEvent] at he

end Sys2Proof.Tests
end

/-! Scope: the reset image, the no-op word, and what one step is. -/

namespace Sys2Proof.Machine

/-! ### Slots of this hardware's image -/

theorem mainImage_getElem? (k : Fin 9) : Config.mainImage[k.val]? = some (Config.mainWords k) := by
  have hOfFn : Config.mainImage = List.ofFn Config.mainWords := by
    simp [Config.mainImage, List.ofFn_succ]
  rw [hOfFn, List.getElem?_ofFn, dif_pos k.isLt]

/-- Slot 0 is the reset vector and slots 1..7 the padding, so `main` and the unused slots start at slot 8 (R19, R20). -/
theorem hardwareImage_getElem?_eight_add (i : Nat) :
    Config.hardwareImage[8 + i]? = (Config.mainImage ++ Config.unusedImage)[i]? := by
  have hPrefix : (Config.resetVectorWord :: Config.paddingImage).length = 8 := by simp
  have hSplit : Config.hardwareImage =
      (Config.resetVectorWord :: Config.paddingImage) ++ (Config.mainImage ++ Config.unusedImage) := rfl
  rw [hSplit, List.getElem?_append_right (by omega), hPrefix, Nat.add_sub_cancel_left]

/-- R21: `main` occupies slots 8..16. -/
theorem hardwareImage_getElem?_main (k : Fin 9) :
    Config.hardwareImage[8 + k.val]? = some (Config.mainWords k) := by
  have hk : k.val < Config.mainImage.length := k.isLt
  rw [hardwareImage_getElem?_eight_add, List.getElem?_append_left hk, mainImage_getElem?]

/-- R22: the slots after `main` hold the zero instruction. -/
theorem hardwareImage_getElem?_unused (i : Nat) (hLow : 17 ≤ i) (hHigh : i ≤ 1023) :
    Config.hardwareImage[i]? = some Config.nopWord := by
  obtain ⟨j, rfl⟩ := Nat.exists_eq_add_of_le hLow
  have hIndex : 17 + j = 8 + (9 + j) := by omega
  rw [hIndex, hardwareImage_getElem?_eight_add, List.getElem?_append_right (by simp),
    mainImage_length, Nat.add_sub_cancel_left]
  exact List.getElem?_replicate_of_lt (by omega)

/-! ### What the no-op word and a step answer -/

theorem exec_nopWord (s : State) :
    exec .nopWord s = .next (countDraw (moveCpuPc s (Config.pcAfterNoOp s.draws))) := rfl

theorem step_of_pending_nil {s : State} (hPending : s.pending = []) : step s = .next s := by
  simp only [step, hPending]

/-- A step on a decodable event is its instruction, run once the event is taken off. -/
theorem step_of_decode_ok {s : State} {e : Event} {rest : List Event} {i : Instr}
    (hPending : s.pending = e :: rest)
    (hDecode : decode s.cfg.addrWidth (presented e s) = .ok i) :
    step s = exec i (takeEvent s e rest) := by
  simp only [step, hPending, hDecode]

/-! ### The obligations -/

/-- Settles O2: the image's length, the slots of `main`, and the slots after it. -/
theorem resetHoldsMainWordsThenZeros : Obligations.ResetHoldsMainWordsThenZeros :=
  ⟨reset_memory_wf, hardwareImage_getElem?_main, hardwareImage_getElem?_unused⟩

/-- Settles O19: the free value drawn is where the program counter goes. -/
theorem nopWordMovesOnlyTheExternalProgramCounter :
    Obligations.NopWordMovesOnlyTheExternalProgramCounter := by
  intro s
  exact ⟨Config.pcAfterNoOp s.draws, exec_nopWord s⟩

/-- Settles O27, by the kind of the oldest event; a fetch cycle's free value is where the program counter stands
afterwards. -/
theorem stepRunsTheDecodedInstruction : Obligations.StepRunsTheDecodedInstruction := by
  constructor
  · intro s agent what rest i hPending hDecode
    exact step_of_decode_ok hPending hDecode
  · intro s rest i hPending hDecode
    exact ⟨Config.pcAfterFetch s.draws, step_of_decode_ok hPending hDecode⟩

/-- Settles O28: a step without events is a stutter (R4). -/
theorem stepWithoutEventsChangesNothing : Obligations.StepWithoutEventsChangesNothing := by
  intro s hPending
  exact step_of_pending_nil hPending

end Sys2Proof.Machine

/-! Scope: the tables and the invariant along steps and runs, the range-table check, and configuration. -/

namespace Sys2Proof.Machine

/-! ### What a step records, and what it keeps -/

/-- Every recorded result is the one the rules give its request: `State.Inv` without the admission of the configuration,
for the states that no admitted configuration stands behind. -/
def State.ObservationsSound (s : State) : Prop :=
  ∀ o ∈ s.observed, SoundObservation s.cfg o

theorem State.inv_iff (s : State) : s.Inv ↔ Admitted s.cfg ∧ s.ObservationsSound := Iff.rfl

theorem State.observationsSound_of_observed_nil {s : State} (hNone : s.observed = []) :
    s.ObservationsSound := by
  simp [State.ObservationsSound, hNone]

/-- R53, R60: an instruction at an address of the address type records nothing, or one sound pair. -/
theorem exec_next_observed {i : Instr} {s t : State} (hWf : i.wf s.cfg.addrWidth = true)
    (h : exec i s = .next t) :
    t.observed = s.observed ∨ ∃ o, SoundObservation s.cfg o ∧ t.observed = s.observed ++ [o] := by
  obtain ⟨a, rfl, rfl⟩ | ⟨a, rfl, rfl⟩ | ⟨-, rfl⟩ | ⟨-, rfl⟩ := exec_next_cases h
  · exact .inr ⟨⟨s.requester, ⟨.I, a⟩, answer s.cfg ⟨.I, a⟩⟩,
      ⟨of_decide_eq_true hWf, rfl⟩, rfl⟩
  · exact .inr ⟨⟨s.requester, ⟨.S, a⟩, answer s.cfg ⟨.S, a⟩⟩,
      ⟨of_decide_eq_true hWf, rfl⟩, rfl⟩
  · exact .inl rfl
  · exact .inl rfl

/-- R26: no step writes the configuration. -/
theorem step_next_cfg {s t : State} (h : step s = .next t) : t.cfg = s.cfg := by
  obtain ⟨-, rfl⟩ | ⟨e, rest, i, -, -, hExec⟩ := step_next_cases h
  · rfl
  · obtain ⟨hCfg, -, -⟩ := exec_next_frame hExec
    rw [hCfg, takeEvent_cfg]

/-- A step records nothing, or one sound pair: what is decoded has an address of the address type. -/
theorem step_next_observed {s t : State} (h : step s = .next t) :
    t.observed = s.observed ∨ ∃ o, SoundObservation s.cfg o ∧ t.observed = s.observed ++ [o] := by
  obtain ⟨-, rfl⟩ | ⟨e, rest, i, -, hDecode, hExec⟩ := step_next_cases h
  · exact .inl rfl
  · have hWf : i.wf (takeEvent s e rest).cfg.addrWidth = true := by
      rw [takeEvent_cfg]
      exact decode_wf hDecode
    simpa using exec_next_observed hWf hExec

theorem step_keeps_observationsSound {s t : State} (hSound : s.ObservationsSound)
    (h : step s = .next t) : t.ObservationsSound := by
  intro o ho
  rw [step_next_cfg h]
  obtain hSame | ⟨new, hNew, hAppend⟩ := step_next_observed h
  · exact hSound o (hSame ▸ ho)
  · rw [hAppend, List.mem_append, List.mem_singleton] at ho
    obtain hOld | rfl := ho
    · exact hSound o hOld
    · exact hNew

/-- What every step keeps, every run keeps. -/
theorem run_keeps {P : State → Prop} (hStep : ∀ {u v : State}, P u → step u = .next v → P v)
    {n : Nat} {s t : State} (hStart : P s) (h : run n s = .next t) : P t := by
  induction n generalizing s with
  | zero =>
    rw [run_zero] at h
    cases h
    exact hStart
  | succ n ih =>
    obtain ⟨u, hFirst, hRest⟩ := run_succ_next_cases h
    exact ih (hStep hStart hFirst) hRest

theorem run_next_cfg {n : Nat} {s t : State} (h : run n s = .next t) : t.cfg = s.cfg :=
  run_keeps (P := fun u => u.cfg = s.cfg) (fun hu hv => (step_next_cfg hv).trans hu) rfl h

/-! ### The range-table check -/

theorem rangeTableWF_iff_pairwise (table : List SubroutineRange) :
    rangeTableWF table = true ↔
      table.Pairwise fun r t => disjointRanges r t = true ∧ r.start ≤ t.start := by
  induction table with
  | nil => simp [rangeTableWF]
  | cons r rest ih => simp [rangeTableWF, ih]

/-- R25.1 in the bounds of the two entries. -/
theorem disjointRanges_iff_no_common_address (r t : SubroutineRange) :
    disjointRanges r t = true ↔
      ¬ ∃ a, (r.start ≤ a ∧ a < r.stop) ∧ (t.start ≤ a ∧ a < t.stop) := by
  simp only [disjointRanges_iff, contains_iff, not_exists]

theorem disjointRanges_comm (r t : SubroutineRange) : disjointRanges r t = disjointRanges t r := by
  simp only [disjointRanges, Nat.min_comm, Nat.max_comm]

/-! ### Configuration and the reset image -/

/-- R23: one container with a bit above bit 23 is enough for an image to fail its check. -/
theorem not_fits_of_wide {n : Nat} {containers : List (BitVec n)}
    (hWide : ∃ v ∈ containers, 2 ^ 24 ≤ v.toNat) : ¬ ∀ v ∈ containers, v.toNat < 2 ^ 24 := by
  push Not
  exact hWide

/-- R23: a container without a bit above bit 23 holds its value as a word. -/
theorem toNat_ofContainer {v : Nat} (h : v < 2 ^ 24) : (ofContainer v).toNat = v := by
  rw [ofContainer, BitVec.toNat_ofNat, Nat.mod_eq_of_lt h]

/-- The admitted image has exactly the supplied values. -/
theorem map_toNat_map_ofContainer {n : Nat} {containers : List (BitVec n)}
    (hFits : ∀ v ∈ containers, v.toNat < 2 ^ 24) :
    (containers.map fun v => ofContainer v.toNat).map BitVec.toNat =
      containers.map BitVec.toNat := by
  rw [List.map_map]
  exact List.map_congr_left fun v hv => toNat_ofContainer (hFits v hv)

/-- R82: the initial state of a supplied image and of a table that passes its check meets the invariant. -/
theorem initial_supplied_inv (c : Config) (image : Vector (BitVec c.containerWidth) c.capacity)
    (table : List (SuppliedRange c.addrWidth))
    (hTable : rangeTableWF (table.map suppliedEntry) = true) :
    (State.initial { c with
      romImage := image.toList.map fun v => ofContainer v.toNat
      rangeTable := table.map suppliedEntry }).Inv :=
  ⟨⟨by simp [Memory.wf], hTable, boundsFit_suppliedEntry table⟩,
    State.observationsSound_of_observed_nil rfl⟩

/-- R20: slots 1..7 hold the zero instruction. -/
theorem hardwareImage_getElem?_padding (i : Nat) (hLow : 1 ≤ i) (hHigh : i ≤ 7) :
    Config.hardwareImage[i]? = some Config.nopWord := by
  obtain ⟨j, rfl⟩ := Nat.exists_eq_add_of_le' hLow
  rw [Config.hardwareImage, List.getElem?_cons_succ,
    List.getElem?_append_left (by rw [paddingImage_length]; omega)]
  exact List.getElem?_replicate_of_lt (by omega)

/-! ### The obligations -/

/-- Settles O34: no step writes the configuration, so no run does. -/
theorem noRunChangesTheTables : Obligations.NoRunChangesTheTables := by
  intro n s s' hRun
  have hCfg : s'.cfg = s.cfg := run_next_cfg hRun
  exact ⟨hCfg, by rw [hCfg], by rw [hCfg]⟩

/-- Settles O35: the configuration is the same one, and the record grows by sound pairs only. -/
theorem stepKeepsTheMachineInvariant : Obligations.StepKeepsTheMachineInvariant := by
  intro s s' hInv hStep
  rw [State.inv_iff] at hInv ⊢
  obtain ⟨hAdmitted, hSound⟩ := hInv
  exact ⟨step_next_cfg hStep ▸ hAdmitted, step_keeps_observationsSound hSound hStep⟩

/-- Settles O5: the check compares each entry with the later ones, and disjointness is symmetric. -/
theorem rangeTableCheckIsDisjointAndOrdered : Obligations.RangeTableCheckIsDisjointAndOrdered := by
  intro table
  simp only [rangeTableWF_iff_pairwise, List.pairwise_iff_getElem,
    ← disjointRanges_iff_no_common_address]
  constructor
  · intro hPairs
    refine ⟨fun i j hi hj hne => ?_, fun i j hi hj hlt => (hPairs i j hi hj hlt).2⟩
    rcases Nat.lt_or_gt_of_ne hne with hlt | hgt
    · exact (hPairs i j hi hj hlt).1
    · rw [disjointRanges_comm]
      exact (hPairs j i hj hi hgt).1
  · rintro ⟨hDisjoint, hOrdered⟩ i j hi hj hlt
    exact ⟨hDisjoint i j hi hj (Nat.ne_of_lt hlt), hOrdered i j hi hj hlt⟩

/-- Settles O6, by what configuration can answer. -/
theorem configureAdmitsExactlyWellFormedParts :
    Obligations.ConfigureAdmitsExactlyWellFormedParts := by
  intro c image table
  obtain ⟨hWide, hRefused⟩ | ⟨hFits, hTable, hRefused⟩ | ⟨hFits, hTable, hNext⟩ :=
    configure_cases c image table
  · rw [hRefused]
    refine ⟨⟨nofun, fun ⟨hFits, _⟩ => ?_⟩, nofun⟩
    exact absurd hFits (not_fits_of_wide hWide)
  · rw [hRefused]
    refine ⟨⟨nofun, fun ⟨_, hWf⟩ => ?_⟩, nofun⟩
    exact absurd hWf (Bool.eq_false_iff.mp hTable)
  · rw [hNext]
    refine ⟨⟨fun _ => ⟨hFits, hTable⟩, fun _ => ⟨_, rfl⟩⟩, ?_⟩
    intro s hs
    cases hs
    exact ⟨initial_supplied_inv c image table hTable, map_toNat_map_ofContainer hFits, rfl⟩

/-- Settles O7, by what configuration can answer: its three answers exclude each other. -/
theorem configureRefusesBadImagesAndTables : Obligations.ConfigureRefusesBadImagesAndTables := by
  intro c image table
  obtain ⟨hWide, hRefused⟩ | ⟨hFits, hTable, hRefused⟩ | ⟨hFits, hTable, hNext⟩ :=
    configure_cases c image table
  · rw [hRefused]
    refine ⟨fun _ => rfl, fun hFits => absurd hFits (not_fits_of_wide hWide),
      nofun, fun r hr => ?_⟩
    cases hr
    exact .inl ⟨rfl, hWide⟩
  · rw [hRefused]
    refine ⟨fun hWide => absurd hFits (not_fits_of_wide hWide), fun _ _ => rfl,
      nofun, fun r hr => ?_⟩
    cases hr
    exact .inr ⟨rfl, hTable⟩
  · rw [hNext]
    exact ⟨fun hWide => absurd hFits (not_fits_of_wide hWide),
      fun _ hIll => absurd hTable (Bool.eq_false_iff.mp hIll),
      nofun, nofun⟩

/-- Settles O36: in every run each result is `answer` of its request, in one configuration. -/
theorem equalRequestsGetEqualResultsInEveryRun :
    Obligations.EqualRequestsGetEqualResultsInEveryRun := by
  intro n s s' hNone hRun o ho o' ho' hRequest
  have hSound : s'.ObservationsSound :=
    run_keeps step_keeps_observationsSound (State.observationsSound_of_observed_nil hNone) hRun
  obtain ⟨-, hAnswer⟩ := hSound o ho
  obtain ⟨-, hAnswer'⟩ := hSound o' ho'
  rw [hAnswer, hAnswer', hRequest]

/-- Settles O1: the slots of the given words, and the two entries' addresses by their bounds. -/
theorem resetTablesHoldTheGivenWordsAndRanges :
    Obligations.ResetTablesHoldTheGivenWordsAndRanges := by
  refine ⟨rfl, hardwareImage_getElem?_padding, rfl, fun a => ?_, fun a => ?_⟩
  · rw [contains_iff]
    exact ⟨fun ⟨_, h⟩ => Nat.le_of_lt_succ h, fun h => ⟨Nat.zero_le a, Nat.lt_succ_of_le h⟩⟩
  · rw [contains_iff]
    exact and_congr_right fun _ => Nat.lt_succ_iff

/-- Settles O3: this hardware's configuration is admitted, and nothing has been observed. -/
theorem resetMeetsTheMachineInvariant : Obligations.ResetMeetsTheMachineInvariant :=
  ⟨⟨reset_memory_wf, by decide, by decide⟩, State.observationsSound_of_observed_nil rfl⟩

end Sys2Proof.Machine

/-! Scope: what a request answers, which part of the configuration it reads, and runs that answer every pending event. -/

namespace Sys2Proof.Machine

/-! ### A request as an instruction -/

/-- The instruction a request is: the port selects the operation (R43). -/
def requestInstr (r : Request) : Instr :=
  match r.port with
  | .I => .romRead r.addr
  | .S => .symResolve r.addr

theorem decode_onPort (w : Nat) (p : Port) (bits : List Bool) :
    decode w (.onPort p bits) = .ok (requestInstr ⟨p, portAddress w bits⟩) := by
  cases p <;> rfl

/-- R53, R60: both operations deliver the request's answer and do nothing else. -/
theorem exec_requestInstr (r : Request) (s : State) :
    exec (requestInstr r) s = .next (deliver s r (answer s.cfg r)) := by
  obtain ⟨p, a⟩ := r
  cases p <;> rfl

theorem exec_romRead (s : State) (a : Nat) :
    exec (.romRead a) s = .next (deliver s ⟨.I, a⟩ (.word (romRead s.cfg a))) :=
  exec_requestInstr ⟨.I, a⟩ s

theorem exec_symResolve (s : State) (a : Nat) :
    exec (.symResolve a) s = .next (deliver s ⟨.S, a⟩ (symbolResponse s.cfg a)) :=
  exec_requestInstr ⟨.S, a⟩ s

/-! ### The part of the configuration a request reads -/

/-- R36: leaving out slots from `n` on, in image and capacity, keeps every read below `n`. -/
theorem romRead_truncated (c : Config) {n a : Nat} (h : a < n) :
    romRead (truncated c n) a = romRead c a := by
  have hBound : a < min c.capacity n ↔ a < c.capacity := by omega
  have hSlot : slot (c.romImage.take n) a = slot c.romImage a := by
    simp only [slot, List.getD, List.getElem?_take_of_lt h]
  simp only [romRead, truncated, hBound, hSlot]

/-- R29, R86: a read looks at the image and its capacity only. -/
theorem romRead_congr {c d : Config} (hCapacity : c.capacity = d.capacity)
    (hImage : c.romImage = d.romImage) (a : Nat) : romRead c a = romRead d a := by
  simp only [romRead, hCapacity, hImage]

/-- R66, R86: a resolution looks at the range table only. -/
theorem symbolResponse_congr {c d : Config} (hTable : c.rangeTable = d.rangeTable) (a : Nat) :
    symbolResponse c a = symbolResponse d a := by
  simp only [symbolResponse, hTable]

/-! ### Steps and runs that answer what is pending -/

/-- What stands on a port is answered in one step, whether a requester or a fetch cycle presents it. -/
theorem step_of_presented_onPort {s : State} {e : Event} {rest : List Event} {p : Port}
    {bits : List Bool} (hPending : s.pending = e :: rest) (hPort : presented e s = .onPort p bits) :
    step s = .next (deliver (takeEvent s e rest) ⟨p, portAddress s.cfg.addrWidth bits⟩
      (answer s.cfg ⟨p, portAddress s.cfg.addrWidth bits⟩)) := by
  have hDecode := decode_onPort s.cfg.addrWidth p bits
  rw [← hPort] at hDecode
  rw [step_of_decode_ok hPending hDecode, exec_requestInstr, takeEvent_cfg]

/-- Only a stored word is presented elsewhere than on a port. -/
theorem presented_onPort {e : Event} (s : State)
    (hNotStored : ∀ agent w, e ≠ .present agent (.storedWord w)) :
    ∃ p bits, presented e s = .onPort p bits := by
  match e with
  | .present _ (.onPort p bits) => exact ⟨p, bits, rfl⟩
  | .present agent (.storedWord w) => exact absurd rfl (hNotStored agent w)
  | .fetchCycle => exact ⟨.I, _, rfl⟩

/-- The record `o` answers the event `e`: it is for `e`'s agent, at an address of the address type, with the result the
rules give; a port request is recorded as itself (R38), a fetch cycle on port I (R57). -/
def AnswersEvent (c : Config) (e : Event) (o : Observation) : Prop :=
  o.agent = eventAgent e ∧ o.response = answer c o.request ∧ o.request.addr < 2 ^ c.addrWidth ∧
    (∀ agent p bits, e = portEvent agent p bits → o.request = ⟨p, portAddress c.addrWidth bits⟩) ∧
    (e = .fetchCycle → o.request.port = .I)

theorem answersEvent_of_presented_onPort {s : State} {e : Event} {p : Port} {bits : List Bool}
    (hPort : presented e s = .onPort p bits) :
    AnswersEvent s.cfg e ⟨eventAgent e, ⟨p, portAddress s.cfg.addrWidth bits⟩,
      answer s.cfg ⟨p, portAddress s.cfg.addrWidth bits⟩⟩ := by
  refine ⟨rfl, rfl, portAddress_lt _ _, ?_, ?_⟩
  · rintro agent p' bits' rfl
    cases hPort
    rfl
  · rintro rfl
    cases hPort
    rfl

/-- The record of a port request leaves nothing open. -/
theorem AnswersEvent.eq_of_portEvent {c : Config} {agent : Agent} {p : Port} {bits : List Bool}
    {o : Observation} (h : AnswersEvent c (portEvent agent p bits) o) :
    o = ⟨agent, ⟨p, portAddress c.addrWidth bits⟩, answer c ⟨p, portAddress c.addrWidth bits⟩⟩ := by
  obtain ⟨(hAgent : o.agent = agent), hResponse, -, hRequest, -⟩ := h
  calc o = ⟨o.agent, o.request, o.response⟩ := rfl
    _ = _ := by rw [hResponse, hAgent, hRequest agent p bits rfl]

/-- A step on an event that is no stored word takes it off and records its answer. -/
theorem step_answersEvent {s : State} {e : Event} {rest : List Event}
    (hPending : s.pending = e :: rest)
    (hNotStored : ∀ agent w, e ≠ .present agent (.storedWord w)) :
    ∃ t o, step s = .next t ∧ t.pending = rest ∧ t.cfg = s.cfg ∧
      t.observed = s.observed ++ [o] ∧ AnswersEvent s.cfg e o := by
  obtain ⟨p, bits, hPort⟩ := presented_onPort s hNotStored
  exact ⟨_, _, step_of_presented_onPort hPending hPort, by simp, by simp, by simp,
    answersEvent_of_presented_onPort hPort⟩

/-- A run as long as the list of pending events answers each of them in turn, where none is a stored word. -/
theorem run_answers_pending (events : List Event) (s : State) (hPending : s.pending = events)
    (hNotStored : ∀ e ∈ events, ∀ agent w, e ≠ .present agent (.storedWord w)) :
    ∃ t records, run events.length s = .next t ∧ t.pending = [] ∧ t.cfg = s.cfg ∧
      t.observed = s.observed ++ records ∧ List.Forall₂ (AnswersEvent s.cfg) events records := by
  induction events generalizing s with
  | nil => exact ⟨s, [], rfl, hPending, rfl, (List.append_nil _).symm, .nil⟩
  | cons e rest ih =>
    obtain ⟨hHead, hRest⟩ := List.forall_mem_cons.mp hNotStored
    obtain ⟨u, o, hStep, hPendingU, hCfgU, hObservedU, hAnswer⟩ := step_answersEvent hPending hHead
    obtain ⟨t, records, hRun, hDone, hCfg, hObserved, hAnswers⟩ := ih u hPendingU hRest
    rw [hCfgU] at hCfg hAnswers
    refine ⟨t, o :: records, (run_succ_of_next _ hStep).trans hRun, hDone, hCfg, ?_,
      .cons hAnswer hAnswers⟩
    rw [hObserved, hObservedU, List.append_assoc, List.singleton_append]

/-- The records of a list of port requests are those requests with their answers, in order. -/
theorem records_eq_of_portEvents {c : Config} {reqs : List (Agent × Port × List Bool)}
    {records : List Observation}
    (h : List.Forall₂ (AnswersEvent c) (reqs.map fun r => portEvent r.1 r.2.1 r.2.2) records) :
    records = reqs.map fun r => ⟨r.1, ⟨r.2.1, portAddress c.addrWidth r.2.2⟩,
      answer c ⟨r.2.1, portAddress c.addrWidth r.2.2⟩⟩ := by
  rw [List.forall₂_map_left_iff] at h
  induction h with
  | nil => rfl
  | cons hAnswer _ ih => rw [List.map_cons, ← ih, ← hAnswer.eq_of_portEvent]

/-! ### The obligations -/

/-- Settles O39, by induction on the pending events. -/
theorem fetchCyclesAndRequestsAreAllAnswered :
    Obligations.FetchCyclesAndRequestsAreAllAnswered := by
  intro s hNotStored
  exact run_answers_pending s.pending s rfl hNotStored

/-- Settles O37: port requests are no stored words, and their records leave nothing open. -/
theorem everyRequestInFlightGetsItsOwnResult :
    Obligations.EveryRequestInFlightGetsItsOwnResult := by
  intro s reqs hPending
  have hNotStored : ∀ e ∈ reqs.map (fun r => portEvent r.1 r.2.1 r.2.2),
      ∀ agent w, e ≠ .present agent (.storedWord w) :=
    List.forall_mem_map.mpr fun r _ agent w => by simp [portEvent]
  obtain ⟨t, records, hRun, hDone, hCfg, hObserved, hAnswers⟩ :=
    run_answers_pending _ s hPending hNotStored
  rw [List.length_map] at hRun
  refine ⟨t, hRun, hDone, hCfg, ?_⟩
  rw [hObserved, records_eq_of_portEvents hAnswers]
  refine congrArg (s.observed ++ ·) (List.map_congr_left fun r _ => ?_)
  obtain ⟨agent, p, bits⟩ := r
  cases p <;> rfl

/-- Settles O12: a read below slot 256 is the same on the cut image. -/
theorem firstSlotsSufficeForReachableReads : Obligations.FirstSlotsSufficeForReachableReads := by
  intro s a ha
  have hCut : romRead (truncated s.cfg 256) a = romRead s.cfg a := romRead_truncated s.cfg ha
  refine ⟨.word (romRead s.cfg a), exec_romRead s a, ?_⟩
  rw [exec_romRead, hCut]
  rfl

/-- Settles O33, by what each operation looks at. -/
theorem eachPortReadsOnlyItsOwnTable : Obligations.EachPortReadsOnlyItsOwnTable := by
  intro s a table image latency
  refine ⟨⟨.word (romRead s.cfg a), exec_romRead s a, ?_⟩,
    ⟨symbolResponse s.cfg a, exec_symResolve s a, ?_⟩⟩
  · rw [exec_romRead, romRead_congr (d := s.cfg) rfl rfl]
    rfl
  · rw [exec_symResolve, symbolResponse_congr (d := s.cfg) rfl]
    rfl

end Sys2Proof.Machine

/-! Scope: the decoder against the encoder, stored words outside the two known ones, and the range of the two results. -/

namespace Sys2Proof

/-! ### Address bits on a port -/

theorem portAddress_toBits {w v : Nat} (h : v < 2 ^ w) : portAddress w (toBits w v) = v := by
  rw [portAddress, ofBits_toBits, Nat.mod_mod, Nat.mod_eq_of_lt h]

theorem toBits_portAddress {w : Nat} {bits : List Bool} (hLength : bits.length = w) :
    toBits w (portAddress w bits) = bits := by
  subst hLength
  rw [portAddress_of_length, toBits_ofBits]

/-! ### Stored words -/

theorem decode_nopWord (w : Nat) : decode w (.storedWord Config.nopWord) = .ok .nopWord := by
  rw [decode, if_pos rfl]

theorem decode_resetVectorWord (w : Nat) :
    decode w (.storedWord Config.resetVectorWord) = .ok .resetVectorJumpWord := by
  rw [decode, if_neg (by decide), if_pos rfl]

/-- U7: the two words of R50 are known whole, and no other. -/
theorem decode_opaqueWord (w : Nat) {x : Word} (hNop : x ≠ Config.nopWord)
    (hJump : x ≠ Config.resetVectorWord) :
    decode w (.storedWord x) = .error (.opaqueWord x) := by
  rw [decode, if_neg hNop, if_neg hJump]

/-- A stored word that decodes is one of the two words of R50. -/
theorem decode_storedWord_ok_cases {w : Nat} {x : Word} {i : Instr}
    (h : decode w (.storedWord x) = .ok i) :
    (x = Config.nopWord ∧ i = .nopWord) ∨
    (x = Config.resetVectorWord ∧ i = .resetVectorJumpWord) := by
  by_cases hNop : x = Config.nopWord
  · subst hNop
    rw [decode_nopWord] at h
    cases h
    exact .inl ⟨rfl, rfl⟩
  · by_cases hJump : x = Config.resetVectorWord
    · subst hJump
      rw [decode_resetVectorWord] at h
      cases h
      exact .inr ⟨rfl, rfl⟩
    · rw [decode_opaqueWord w hNop hJump] at h
      cases h

end Sys2Proof

namespace Sys2Proof.Machine

/-! ### Requests as instructions, encoded and decoded -/

/-- R44, R46: a request is encoded on its own port. -/
theorem encode_requestInstr (w : Nat) (r : Request) :
    encode w (requestInstr r) = .onPort r.port (toBits w r.addr) := by
  obtain ⟨p, a⟩ := r
  cases p <;> rfl

theorem decode_onPort_toBits (p : Port) {w v : Nat} (h : v < 2 ^ w) :
    decode w (.onPort p (toBits w v)) = .ok (requestInstr ⟨p, v⟩) := by
  rw [decode_onPort, portAddress_toBits h]

/-! ### What the jump word and a rejected word do -/

theorem exec_resetVectorJumpWord (s : State) :
    exec .resetVectorJumpWord s = .next (moveCpuPc s Config.jumpTarget) := rfl

/-- A step on an event that does not decode is refused. -/
theorem step_of_decode_error {s : State} {e : Event} {rest : List Event} {r : Reject}
    (hPending : s.pending = e :: rest)
    (hDecode : decode s.cfg.addrWidth (presented e s) = .error r) :
    step s = .refused (rejection r) := by
  simp only [step, hPending, hDecode]

/-! ### What a read can answer, and the container it is carried in -/

theorem slot_of_ge (m : Memory) (i : Nat) (h : m.length ≤ i) : slot m i = Config.nopWord := by
  simp [slot, List.getD, h, unlistedWord]

/-- R45: a read gives the stored word or the zero word. -/
theorem romRead_stored_or_zero (c : Config) (a : Nat) :
    c.romImage[a]? = some (romRead c a) ∨ romRead c a = Config.nopWord := by
  rcases Nat.lt_or_ge a c.capacity with hIn | hOut
  · rw [romRead_of_lt c a hIn]
    rcases Nat.lt_or_ge a c.romImage.length with hListed | hUnlisted
    · exact .inl (by rw [slot_of_lt _ _ hListed, List.getElem?_eq_getElem hListed])
    · exact .inr (slot_of_ge _ _ hUnlisted)
  · exact .inr (romRead_of_ge c a hOut)

theorem toNat_inContainer_of_le {n : Nat} (h : 24 ≤ n) (w : Word) :
    (inContainer n w).toNat = w.toNat := by
  rw [inContainer, BitVec.toNat_setWidth_of_le h]

/-- R45: a container adds no bit to the word it carries. -/
theorem getLsbD_inContainer_of_ge (n : Nat) (w : Word) {i : Nat} (h : 24 ≤ i) :
    (inContainer n w).getLsbD i = false := by
  rw [inContainer, BitVec.getLsbD_setWidth, BitVec.getLsbD_of_ge w i h, Bool.and_false]

/-! ### The obligations -/

/-- Settles O24, by the instruction: a request goes through its address bits, a stored word is itself. -/
theorem decodeOfEncodeIsTheInstruction : Obligations.DecodeOfEncodeIsTheInstruction := by
  intro w i hWf
  cases i with
  | romRead a => exact decode_onPort_toBits .I (of_decide_eq_true hWf)
  | symResolve a => exact decode_onPort_toBits .S (of_decide_eq_true hWf)
  | nopWord => exact decode_nopWord w
  | resetVectorJumpWord => exact decode_resetVectorWord w

/-- Settles O11: the word is `romRead`'s, and a container keeps it. -/
theorem romReadResponseKeepsUpperContainerBitsZero :
    Obligations.RomReadResponseKeepsUpperContainerBitsZero := by
  intro s a
  exact ⟨romRead s.cfg a, exec_romRead s a, romRead_stored_or_zero s.cfg a, fun n hn =>
    ⟨toNat_inContainer_of_le hn _, fun _ hi => getLsbD_inContainer_of_ge n _ hi⟩⟩

/-- Settles O15, by what the scan can answer. -/
theorem symResolveAlwaysAnswersAValidLabel : Obligations.SymResolveAlwaysAnswersAValidLabel := by
  intro s a
  refine ⟨_, _, exec_symResolve s a, ?_⟩
  obtain ⟨hUnknown, hNone⟩ | ⟨k, hk, hRange, hContains, -⟩ := resolveFrom_cases s.cfg.rangeTable 0 a
  · have hId : resolve s.cfg.rangeTable a = .unknown := hUnknown
    rw [hId]
    exact .inl ⟨rfl, rfl, fun r hr => (contains_eq_false_iff r a).mp (hNone r hr)⟩
  · have hId : resolve s.cfg.rangeTable a = .range k := by rw [resolve, hRange, Nat.zero_add]
    rw [hId]
    exact .inr ⟨k, hk, rfl, labelString_range _ k hk, (contains_iff _ a).mp hContains⟩

/-- Settles O23: the address is the port's, and the bits of a value are that value's. -/
theorem everyPortValueDecodesToItsOperation : Obligations.EveryPortValueDecodesToItsOperation := by
  constructor
  · intro w bits _
    exact ⟨portAddress w bits, portAddress_lt w bits, decode_onPort w .I bits, decode_onPort w .S bits⟩
  · intro w v hv
    exact ⟨decode_onPort_toBits .I hv, decode_onPort_toBits .S hv⟩

/-- Settles O25, by what stands before the decoder. -/
theorem encodeOfDecodeIsTheEncoding : Obligations.EncodeOfDecodeIsTheEncoding := by
  intro w e i hLength hDecode
  refine ⟨decode_wf hDecode, ?_⟩
  cases e with
  | onPort p bits =>
    rw [decode_onPort] at hDecode
    cases hDecode
    rw [encode_requestInstr, toBits_portAddress (hLength p bits rfl)]
  | storedWord x =>
    obtain ⟨rfl, rfl⟩ | ⟨rfl, rfl⟩ := decode_storedWord_ok_cases hDecode
    · rfl
    · rfl

/-- Settles O20: the jump's target is address 8. -/
theorem resetVectorWordJumpsToAddressEight : Obligations.ResetVectorWordJumpsToAddressEight := by
  intro s
  exact exec_resetVectorJumpWord s

/-- Settles O22: the decoder knows no other stored word, and what it rejects the step refuses. -/
theorem otherStoredWordsAreRefusedByName : Obligations.OtherStoredWordsAreRefusedByName := by
  intro s agent w rest hPending hNop hJump
  exact step_of_decode_error hPending (decode_opaqueWord s.cfg.addrWidth hNop hJump)

/-- Settles O26: the bits of the two requests are the numbers 17 and 100. -/
theorem writtenOutWordsDecode : Obligations.WrittenOutWordsDecode :=
  ⟨decode_onPort 8 .I _, decode_onPort 8 .S _, decode_nopWord 8, decode_resetVectorWord 8⟩

end Sys2Proof.Machine

/-! Scope: what a read gives from a listed slot and beyond the capacity, and the step on a fetch cycle and on a port. -/

namespace Sys2Proof

/-- R48: a port at least as wide as the bits on it carries their number: no offset, no scaling, no sign extension. -/
theorem portAddress_toBits_of_le {w n v : Nat} (hWidth : n ≤ w) (h : v < 2 ^ n) :
    portAddress w (toBits n v) = v := by
  have hFits : v < 2 ^ w := Nat.lt_of_lt_of_le h (Nat.pow_le_pow_right (by omega) hWidth)
  rw [portAddress, ofBits_toBits, Nat.mod_eq_of_lt h, Nat.mod_eq_of_lt hFits]

end Sys2Proof

namespace Sys2Proof.Machine

/-! ### What a read gives -/

/-- R54: in bounds, a read gives the word its slot lists. -/
theorem romRead_eq_of_getElem? {c : Config} {a : Nat} {w : Word} (hIn : a < c.capacity)
    (hSlot : c.romImage[a]? = some w) : romRead c a = w := by
  obtain ⟨hListed, hWord⟩ := List.getElem?_eq_some_iff.mp hSlot
  rw [romRead_of_lt c a hIn, slot_of_lt _ _ hListed, hWord]

/-- R53: a read records its word, and changes nothing else. -/
theorem exec_romRead_of_romRead_eq {s : State} {a : Nat} {w : Word} (h : romRead s.cfg a = w) :
    exec (.romRead a) s =
      .next { s with observed := s.observed ++ [⟨s.requester, ⟨.I, a⟩, .word w⟩] } := by
  subst h
  exact exec_romRead s a

/-! ### What a request is answered with -/

/-- R45, R47: a request on port I is answered with a stored word or the zero word, one on port S with a label. -/
theorem answer_by_port (c : Config) (p : Port) (a : Nat) :
    (p = .I ∧ ∃ w, answer c ⟨p, a⟩ = .word w ∧
      (c.romImage[a]? = some w ∨ w = Config.nopWord)) ∨
    (p = .S ∧ ∃ id text, answer c ⟨p, a⟩ = .label id text) := by
  cases p with
  | I => exact .inl ⟨rfl, romRead c a, rfl, romRead_stored_or_zero c a⟩
  | S => exact .inr ⟨rfl, _, _, rfl⟩

/-- R57: at a width that holds the program counter, a fetch cycle is decoded as a read there. -/
theorem decode_presented_fetchCycle {s : State} (hWidth : 8 ≤ s.cfg.addrWidth) :
    decode s.cfg.addrWidth (presented .fetchCycle s) = .ok (.romRead s.cpuPc.toNat) := by
  have hAddress : portAddress s.cfg.addrWidth (toBits 8 s.cpuPc.toNat) = s.cpuPc.toNat :=
    portAddress_toBits_of_le hWidth s.cpuPc.isLt
  rw [presented, decode_onPort, hAddress, requestInstr]

/-! ### The obligations -/

/-- Settles O10, by the part of the image the address falls in. -/
theorem romReadResultTableOfThisHardware : Obligations.RomReadResultTableOfThisHardware := by
  intro s hCfg a w hTable
  have hSlot : Config.hardwareImage[a]? = some w ∧ a ≤ 255 := by
    obtain ⟨rfl, rfl⟩ | ⟨hLow, hHigh, rfl⟩ | ⟨k, rfl, rfl⟩ | ⟨hLow, hHigh, rfl⟩ := hTable
    · exact ⟨rfl, by omega⟩
    · exact ⟨hardwareImage_getElem?_padding a hLow hHigh, by omega⟩
    · exact ⟨hardwareImage_getElem?_main k, by omega⟩
    · exact ⟨hardwareImage_getElem?_unused a hLow (by omega), hHigh⟩
  obtain ⟨hWord, hAddress⟩ := hSlot
  have hIn : a < Config.hardware.capacity := Nat.lt_of_le_of_lt hAddress (by decide)
  have hRead : romRead Config.hardware a = w := romRead_eq_of_getElem? hIn hWord
  exact exec_romRead_of_romRead_eq (hCfg ▸ hRead)

/-- Settles O29: the draw the fetch cycle uses up is where the program counter stands afterwards. -/
theorem fetchCycleReadsAtTheProgramCounter : Obligations.FetchCycleReadsAtTheProgramCounter := by
  intro s rest hPending hWidth
  exact ⟨Config.pcAfterFetch s.draws,
    step_of_decode_ok hPending (decode_presented_fetchCycle hWidth)⟩

/-- Settles O31: the step delivers the request's answer, whose form depends on the port. -/
theorem everyPortRequestIsAnsweredInOneStep : Obligations.EveryPortRequestIsAnsweredInOneStep := by
  intro s agent p bits rest hPending
  exact ⟨answer s.cfg ⟨p, portAddress s.cfg.addrWidth bits⟩, portAddress_lt _ bits,
    step_of_presented_onPort hPending rfl, rfl, answer_by_port s.cfg p _⟩

/-- Settles O8: the slot is listed, and a container keeps its word. -/
theorem romReadInBoundsIsTheStoredWord : Obligations.RomReadInBoundsIsTheStoredWord := by
  intro s a hIn hListed
  have hRead : romRead s.cfg a = s.cfg.romImage[a] :=
    romRead_eq_of_getElem? hIn (List.getElem?_eq_getElem hListed)
  exact ⟨exec_romRead_of_romRead_eq hRead, fun n hn => toNat_inContainer_of_le hn _⟩

/-- Settles O9: beyond the capacity a read gives the zero word, and this hardware's port stays below it. -/
theorem romReadOutOfBoundsIsZero : Obligations.RomReadOutOfBoundsIsZero := by
  constructor
  · intro s a hOut
    exact exec_romRead_of_romRead_eq (romRead_of_ge s.cfg a hOut)
  · intro bits
    exact Nat.lt_trans (portAddress_lt _ bits) (by decide)

end Sys2Proof.Machine

/-! Scope: what the first-match scan gives on any table and on a well-formed one, and the binary search against it. -/

namespace Sys2Proof.Machine

/-! ### What the scan gives -/

/-- R61: the scan gives the first entry that contains the address. -/
theorem resolve_eq_range {table : List SubroutineRange} {a k : Nat} (hk : k < table.length)
    (hIn : contains table[k] a = true)
    (hFirst : ∀ j, ∀ hj : j < k, contains (table[j]'(Nat.lt_trans hj hk)) a = false) :
    resolve table a = .range k := by
  obtain ⟨-, hNone⟩ | ⟨j, hj, hRange, hInJ, hFirstJ⟩ := resolveFrom_cases table 0 a
  · exact absurd hIn (Bool.eq_false_iff.mp (hNone _ (List.getElem_mem hk)))
  · rcases Nat.lt_trichotomy j k with hlt | rfl | hgt
    · exact absurd hInJ (Bool.eq_false_iff.mp (hFirst j hlt))
    · rw [resolve, hRange, Nat.zero_add]
    · exact absurd hIn (Bool.eq_false_iff.mp (hFirstJ k hgt))

/-- R62: the scan gives no entry where none contains the address. -/
theorem resolve_eq_unknown {table : List SubroutineRange} {a : Nat}
    (hNone : ∀ r ∈ table, contains r a = false) : resolve table a = .unknown := by
  obtain ⟨hUnknown, -⟩ | ⟨j, hj, -, hIn, -⟩ := resolveFrom_cases table 0 a
  · exact hUnknown
  · exact absurd hIn (Bool.eq_false_iff.mp (hNone _ (List.getElem_mem hj)))

/-- R25.1: on a well-formed table at most one entry contains an address. -/
theorem contains_eq_false_of_ne {table : List SubroutineRange} (hWf : rangeTableWF table = true)
    {a j k : Nat} {hj : j < table.length} {hk : k < table.length} (hne : j ≠ k)
    (hIn : contains table[k] a = true) : contains table[j] a = false := by
  obtain ⟨hDisjoint, -⟩ := (rangeTableCheckIsDisjointAndOrdered table).mp hWf
  rw [contains_iff] at hIn
  rw [contains_eq_false_iff]
  exact fun hInJ => hDisjoint j k hj hk hne ⟨a, hInJ, hIn⟩

/-- R64: on a well-formed table the scan gives whichever entry contains the address. -/
theorem resolve_eq_range_of_rangeTableWF {table : List SubroutineRange}
    (hWf : rangeTableWF table = true) {a k : Nat} (hk : k < table.length)
    (hIn : contains table[k] a = true) : resolve table a = .range k :=
  resolve_eq_range hk hIn fun _ hj => contains_eq_false_of_ne hWf (Nat.ne_of_lt hj) hIn

/-! ### What SYM_RESOLVE answers -/

theorem symbolResponse_of_resolve_eq_range {c : Config} {a k : Nat}
    (hk : k < c.rangeTable.length) (h : resolve c.rangeTable a = .range k) :
    symbolResponse c a = .label (.range k) c.rangeTable[k].label := by
  rw [symbolResponse, h, labelString_range _ k hk]

theorem symbolResponse_of_resolve_eq_unknown {c : Config} {a : Nat}
    (h : resolve c.rangeTable a = .unknown) : symbolResponse c a = .label .unknown "Unknown" := by
  rw [symbolResponse, h, labelString, Config.sentinelLabel]

/-- R60: a resolution records its label, and changes nothing else. -/
theorem exec_symResolve_of_symbolResponse_eq {s : State} {a : Nat} {id : LabelId} {text : String}
    (h : symbolResponse s.cfg a = .label id text) :
    exec (.symResolve a) s =
      .next { s with observed := s.observed ++ [⟨s.requester, ⟨.S, a⟩, .label id text⟩] } := by
  rw [← h]
  exact exec_symResolve s a

/-! ### The halving search -/

/-- The invariant of the halving search: every entry before `lo` starts at most at `a`, and every entry from `hi` on
starts above it. -/
structure StartCountWithin (table : List SubroutineRange) (a lo hi : Nat) : Prop where
  lo_le_hi : lo ≤ hi
  hi_le_length : hi ≤ table.length
  start_le : ∀ i, ∀ h : i < table.length, i < lo → table[i].start ≤ a
  lt_start : ∀ i, ∀ h : i < table.length, hi ≤ i → a < table[i].start

theorem startCountWithin_length (table : List SubroutineRange) (a : Nat) :
    StartCountWithin table a 0 table.length where
  lo_le_hi := Nat.zero_le _
  hi_le_length := Nat.le_refl _
  start_le _ _ hNeg := absurd hNeg (Nat.not_lt_zero _)
  lt_start _ h hGe := absurd h (Nat.not_lt.mpr hGe)

theorem countStarts_of_ge (table : List SubroutineRange) (a fuel : Nat) {lo hi : Nat}
    (h : hi ≤ lo) : countStarts table a fuel lo hi = lo := by
  cases fuel with
  | zero => rfl
  | succ fuel => rw [countStarts, if_neg (Nat.not_lt.mpr h)]

/-- One halving: the entry in the middle decides which half goes on. -/
theorem countStarts_succ_of_lt {table : List SubroutineRange} (a fuel : Nat) {lo hi : Nat}
    (hlt : lo < hi) (hMid : (lo + hi) / 2 < table.length) :
    countStarts table a (fuel + 1) lo hi =
      if table[(lo + hi) / 2].start ≤ a then countStarts table a fuel ((lo + hi) / 2 + 1) hi
      else countStarts table a fuel lo ((lo + hi) / 2) := by
  simp only [countStarts, if_pos hlt, List.getElem?_eq_getElem hMid]

section

variable {table : List SubroutineRange} {a lo hi mid : Nat}

/-- Starts do not decrease (R25.2). -/
def StartsOrdered (table : List SubroutineRange) : Prop :=
  ∀ i j, ∀ hi : i < table.length, ∀ hj : j < table.length, i < j → table[i].start ≤ table[j].start

theorem startsOrdered_of_rangeTableWF (hWf : rangeTableWF table = true) : StartsOrdered table :=
  ((rangeTableCheckIsDisjointAndOrdered table).mp hWf).2

/-- A middle entry that starts at most at the address takes the entries before it along. -/
theorem StartCountWithin.raise_lo (h : StartCountWithin table a lo hi)
    (hOrdered : StartsOrdered table) (hHi : mid < hi) (hMid : mid < table.length)
    (hStart : table[mid].start ≤ a) : StartCountWithin table a (mid + 1) hi where
  lo_le_hi := hHi
  hi_le_length := h.hi_le_length
  start_le i hi' hBefore := by
    obtain hlt | rfl := Nat.lt_succ_iff_lt_or_eq.mp hBefore
    · exact Nat.le_trans (hOrdered i mid hi' hMid hlt) hStart
    · exact hStart
  lt_start := h.lt_start

/-- A middle entry that starts above the address takes the entries after it along. -/
theorem StartCountWithin.lower_hi (h : StartCountWithin table a lo hi)
    (hOrdered : StartsOrdered table) (hLo : lo ≤ mid) (hMid : mid < table.length)
    (hStart : a < table[mid].start) : StartCountWithin table a lo mid where
  lo_le_hi := hLo
  hi_le_length := Nat.le_of_lt hMid
  start_le := h.start_le
  lt_start i hi' hFrom := by
    obtain rfl | hlt := Nat.eq_or_lt_of_le hFrom
    · exact hStart
    · exact Nat.lt_of_lt_of_le hStart (hOrdered mid i hMid hi' hlt)

/-- With fuel for the whole interval the search closes it: its result is the number of entries that start at most at the
address. -/
theorem countStarts_startCountWithin (hOrdered : StartsOrdered table) (fuel : Nat)
    (h : StartCountWithin table a lo hi) (hFuel : hi ≤ lo + fuel) :
    StartCountWithin table a (countStarts table a fuel lo hi) (countStarts table a fuel lo hi) := by
  induction fuel generalizing lo hi with
  | zero =>
    obtain rfl : lo = hi := Nat.le_antisymm h.lo_le_hi hFuel
    exact h
  | succ fuel ih =>
    rcases Nat.lt_or_ge lo hi with hlt | hge
    · have hMid : (lo + hi) / 2 < table.length := by have := h.hi_le_length; omega
      rw [countStarts_succ_of_lt a fuel hlt hMid]
      split_ifs with hStart
      · exact ih (h.raise_lo hOrdered (by omega) hMid hStart) (by omega)
      · exact ih (h.lower_hi hOrdered (by omega) hMid (Nat.lt_of_not_ge hStart)) (by omega)
    · obtain rfl : lo = hi := Nat.le_antisymm h.lo_le_hi hge
      rw [countStarts_of_ge table a _ hge]
      exact h

end

theorem resolveBinary_of_count_zero {table : List SubroutineRange} {a : Nat}
    (h : countStarts table a table.length 0 table.length = 0) :
    resolveBinary table a = .unknown := by
  simp only [resolveBinary, h]

theorem resolveBinary_of_count_succ {table : List SubroutineRange} {a k : Nat}
    (h : countStarts table a table.length 0 table.length = k + 1) (hk : k < table.length) :
    resolveBinary table a = if a < table[k].stop then .range k else .unknown := by
  simp only [resolveBinary, h, List.getElem?_eq_getElem hk]

/-- C6: an entry ends where a later one that is not empty starts, or before; an empty later entry could stand inside
it. -/
theorem stop_le_start_of_lt {table : List SubroutineRange} (hWf : rangeTableWF table = true)
    {i k : Nat} {hi : i < table.length} {hk : k < table.length} (hlt : i < k)
    (hNonempty : table[k].start < table[k].stop) : table[i].stop ≤ table[k].start := by
  have hStarts : table[i].start ≤ table[k].start := startsOrdered_of_rangeTableWF hWf i k hi hk hlt
  have hInK : contains table[k] table[k].start = true :=
    (contains_iff _ _).mpr ⟨Nat.le_refl _, hNonempty⟩
  have hNotInI := contains_eq_false_of_ne hWf (hj := hi) (Nat.ne_of_lt hlt) hInK
  rw [contains_eq_false_iff] at hNotInI
  exact Nat.le_of_not_lt fun hStop => hNotInI ⟨hStarts, hStop⟩

/-- If the last entry that starts at most at the address ends before it, no entry contains it: the earlier ones end
sooner and the later ones start above. -/
theorem resolve_eq_unknown_of_last_start {table : List SubroutineRange} {a k : Nat}
    (hWf : rangeTableWF table = true) (hCount : StartCountWithin table a (k + 1) (k + 1))
    (hk : k < table.length) (hNonempty : table[k].start < table[k].stop)
    (hStop : table[k].stop ≤ a) : resolve table a = .unknown := by
  refine resolve_eq_unknown (List.forall_mem_iff_getElem.mpr fun i hi => ?_)
  rw [contains_eq_false_iff]
  rintro ⟨hStartI, hStopI⟩
  rcases Nat.lt_trichotomy i k with hlt | rfl | hgt
  · have hEnds : table[i].stop ≤ table[k].start := stop_le_start_of_lt hWf hlt hNonempty
    have hStartK : table[k].start ≤ a := hCount.start_le k hk (Nat.lt_succ_self k)
    omega
  · omega
  · exact absurd hStartI (Nat.not_le.mpr (hCount.lt_start i hi hgt))

/-! ### The obligations -/

/-- Settles O18, by how many entries start at most at the address: none, or up to entry `k`, which then is the only one
that can contain it. -/
theorem binarySearchGivesTheFirstMatch : Obligations.BinarySearchGivesTheFirstMatch := by
  intro table a hWf hNonempty
  have hCount := countStarts_startCountWithin (startsOrdered_of_rangeTableWF hWf) table.length
    (startCountWithin_length table a) (Nat.le_add_left _ _)
  cases hn : countStarts table a table.length 0 table.length with
  | zero =>
    rw [hn] at hCount
    have hNone : resolve table a = .unknown := by
      refine resolve_eq_unknown (List.forall_mem_iff_getElem.mpr fun i hi => ?_)
      rw [contains_eq_false_iff]
      exact fun ⟨hStart, _⟩ => absurd hStart (Nat.not_le.mpr (hCount.lt_start i hi (Nat.zero_le i)))
    rw [resolveBinary_of_count_zero hn, hNone]
  | succ k =>
    rw [hn] at hCount
    have hk : k < table.length := hCount.hi_le_length
    rw [resolveBinary_of_count_succ hn hk]
    split_ifs with hStop
    · have hStart : table[k].start ≤ a := hCount.start_le k hk (Nat.lt_succ_self k)
      exact (resolve_eq_range_of_rangeTableWF hWf hk
        ((contains_iff _ _).mpr ⟨hStart, hStop⟩)).symm
    · exact (resolve_eq_unknown_of_last_start hWf hCount hk (hNonempty _ (List.getElem_mem hk))
        (Nat.le_of_not_lt hStop)).symm

/-- Settles O13: the scan gives the first match on every table, and an ill-formed table is not admitted. -/
theorem symResolveFirstMatchWins : Obligations.SymResolveFirstMatchWins := by
  constructor
  · intro s a k hk hIn hEarlier
    have hResolve : resolve s.cfg.rangeTable a = .range k :=
      resolve_eq_range hk ((contains_iff _ _).mpr hIn) fun j hj =>
        (contains_eq_false_iff _ _).mpr (hEarlier j hj)
    exact exec_symResolve_of_symbolResponse_eq (symbolResponse_of_resolve_eq_range hk hResolve)
  · intro c image table t hIll hNext
    obtain ⟨hAdmits, -⟩ := configureAdmitsExactlyWellFormedParts c image table
    obtain ⟨-, hWf⟩ := hAdmits.mp ⟨t, hNext⟩
    exact absurd hWf (Bool.eq_false_iff.mp hIll)

/-- Settles O14: the scan gives no entry, and the sentinel stands for that. -/
theorem symResolveNoMatchIsUnknown : Obligations.SymResolveNoMatchIsUnknown := by
  intro s a hNone
  have hResolve : resolve s.cfg.rangeTable a = .unknown :=
    resolve_eq_unknown fun r hr => (contains_eq_false_iff r a).mpr (hNone r hr)
  exact exec_symResolve_of_symbolResponse_eq (symbolResponse_of_resolve_eq_unknown hResolve)

/-- Settles O17: no other entry, so no earlier one, contains the address. -/
theorem anySearchOnAWellFormedTableAgrees : Obligations.AnySearchOnAWellFormedTableAgrees := by
  intro s a k hk hWf hStart hStop
  have hResolve : resolve s.cfg.rangeTable a = .range k :=
    resolve_eq_range_of_rangeTableWF hWf hk ((contains_iff _ _).mpr ⟨hStart, hStop⟩)
  exact exec_symResolve_of_symbolResponse_eq (symbolResponse_of_resolve_eq_range hk hResolve)

/-- Settles O16: this hardware's table is well-formed, and the address falls in one of its entries or above both. -/
theorem symResolveResultTableOfThisHardware : Obligations.SymResolveResultTableOfThisHardware := by
  intro s hCfg a id text hTable
  have hWf : rangeTableWF Config.hardware.rangeTable = true := by decide
  refine exec_symResolve_of_symbolResponse_eq ?_
  rw [hCfg]
  obtain ⟨hHigh, rfl, rfl⟩ | ⟨hLow, hHigh, rfl, rfl⟩ | ⟨hLow, -, rfl, rfl⟩ := hTable
  · have hIn : contains ⟨"RESET_vect", 0, 8⟩ a = true :=
      (contains_iff _ _).mpr ⟨Nat.zero_le a, Nat.lt_succ_of_le hHigh⟩
    exact symbolResponse_of_resolve_eq_range (by decide)
      (resolve_eq_range_of_rangeTableWF hWf (by decide) hIn)
  · have hIn : contains ⟨"main", 8, 17⟩ a = true :=
      (contains_iff _ _).mpr ⟨hLow, Nat.lt_succ_of_le hHigh⟩
    exact symbolResponse_of_resolve_eq_range (by decide)
      (resolve_eq_range_of_rangeTableWF hWf (by decide) hIn)
  · refine symbolResponse_of_resolve_eq_unknown (resolve_eq_unknown fun r hr => ?_)
    have hEnds : ∀ r ∈ Config.hardware.rangeTable, r.stop ≤ 17 := by decide
    rw [contains_eq_false_iff]
    exact fun ⟨_, hStop⟩ => absurd (hEnds r hr) (by omega)

end Sys2Proof.Machine

/-! Scope: everything a step can answer, what a stored word leaves alone, and runs of the same requests in two orders. -/

namespace Sys2Proof.Machine

/-! ### What a stored word records, and what a step can answer -/

/-- R71: a stored word is no request, so executing one records nothing. -/
theorem exec_storedWord_observed {i : Instr} {s t : State}
    (hStored : i = .nopWord ∨ i = .resetVectorJumpWord) (h : exec i s = .next t) :
    t.observed = s.observed := by
  obtain rfl | rfl := hStored
  · rw [exec_nopWord] at h
    cases h
    simp
  · rw [exec_resetVectorJumpWord] at h
    cases h
    simp

/-- The external CPU's step on a stored word: the two words of R50 run, and any other is refused by name (U7). -/
theorem step_storedWord_cases {s : State} {agent : Agent} {w : Word} {rest : List Event}
    (hPending : s.pending = .present agent (.storedWord w) :: rest) :
    (∃ t, step s = .next t) ∨
    (w ≠ Config.nopWord ∧ w ≠ Config.resetVectorWord ∧ step s = .refused (.opaqueWord w)) := by
  by_cases hNop : w = Config.nopWord
  · subst hNop
    exact .inl ⟨_, (step_of_decode_ok hPending (decode_nopWord _)).trans (exec_nopWord _)⟩
  by_cases hJump : w = Config.resetVectorWord
  · subst hJump
    exact .inl ⟨_, (step_of_decode_ok hPending (decode_resetVectorWord _)).trans
      (exec_resetVectorJumpWord _)⟩
  exact .inr ⟨hNop, hJump, otherStoredWordsAreRefusedByName s agent w rest hPending hNop hJump⟩

/-- Everything a step can answer: a next state, or the refusal of a stored word outside the two of R50. -/
theorem step_cases (s : State) :
    (∃ t, step s = .next t) ∨
    (∃ agent w rest, s.pending = .present agent (.storedWord w) :: rest ∧
      w ≠ Config.nopWord ∧ w ≠ Config.resetVectorWord ∧ step s = .refused (.opaqueWord w)) := by
  match hPending : s.pending with
  | [] => exact .inl ⟨s, step_of_pending_nil hPending⟩
  | .fetchCycle :: _ => exact .inl ⟨_, step_of_presented_onPort hPending rfl⟩
  | .present _ (.onPort _ _) :: _ => exact .inl ⟨_, step_of_presented_onPort hPending rfl⟩
  | .present agent (.storedWord w) :: rest =>
    exact (step_storedWord_cases hPending).imp_right fun hRefused => ⟨agent, w, rest, rfl, hRefused⟩

/-! ### The obligations -/

/-- Settles O30, by what a step can answer. -/
theorem stepNeverFaultsAndNeverRefusesARequest :
    Obligations.StepNeverFaultsAndNeverRefusesARequest := by
  intro s
  obtain ⟨t, hNext⟩ | ⟨agent, w, rest, hPending, hNop, hJump, hRefused⟩ := step_cases s
  · rw [hNext]
    exact ⟨nofun, nofun⟩
  · rw [hRefused]
    refine ⟨nofun, fun r hr => ?_⟩
    cases hr
    exact ⟨agent, w, rest, hPending, hNop, hJump, rfl⟩

/-- Settles O38: each run records one pair per request, which the configuration and that request fix, so the records are
permuted as the requests are. -/
theorem orderOfRequestsChangesNoResult : Obligations.OrderOfRequestsChangesNoResult := by
  intro s t reqs reqs' hPerm hCfg hPendingS hPendingT
  obtain ⟨s', hRunS, -, -, hObservedS⟩ := everyRequestInFlightGetsItsOwnResult s reqs hPendingS
  obtain ⟨t', hRunT, -, -, hObservedT⟩ := everyRequestInFlightGetsItsOwnResult t reqs' hPendingT
  rw [← hCfg] at hObservedT
  exact ⟨s', t', _, _, hRunS, hRunT, hObservedS, hObservedT, hPerm.map _⟩

/-- Settles O21: no instruction writes the tables, the inputs or the requester, and a stored word records nothing. -/
theorem storedWordsLeaveTheBlockAlone : Obligations.StoredWordsLeaveTheBlockAlone := by
  intro i s t hStored hExec
  obtain ⟨hCfg, hPending, hRequester⟩ := exec_next_frame hExec
  exact ⟨hCfg, fun a => by rw [hCfg], exec_storedWord_observed hStored hExec, hPending, hRequester⟩

end Sys2Proof.Machine

/-! Scope: configuration with a machine's own tables, and the results of one request in two states. -/

namespace Sys2Proof.Machine

/-! ### Containers that hold given words -/

/-- R23: a container with a word's value has no bit above bit 23. -/
theorem fits_of_map_toNat_eq {n : Nat} {containers : List (BitVec n)} {words : List Word}
    (hValues : containers.map BitVec.toNat = words.map BitVec.toNat) :
    ∀ v ∈ containers, v.toNat < 2 ^ 24 := by
  intro v hv
  have hValue : v.toNat ∈ words.map BitVec.toNat := hValues ▸ List.mem_map_of_mem hv
  obtain ⟨w, -, hw⟩ := List.mem_map.mp hValue
  exact hw ▸ w.isLt

/-- Containers with the values of `words` are admitted as `words`. -/
theorem map_ofContainer_eq_of_map_toNat_eq {n : Nat} {containers : List (BitVec n)}
    {words : List Word} (hValues : containers.map BitVec.toNat = words.map BitVec.toNat) :
    (containers.map fun v => ofContainer v.toNat) = words := by
  have hSame := (map_toNat_map_ofContainer (fits_of_map_toNat_eq hValues)).trans hValues
  exact List.map_injective_iff.mpr (fun _ _ => BitVec.eq_of_toNat_eq) hSame

/-- R82: a machine supplied with its own tables, where its range table passes the check, starts in its own initial
state. -/
theorem configure_own_tables {c : Config} {image : Vector (BitVec c.containerWidth) c.capacity}
    {table : List (SuppliedRange c.addrWidth)}
    (hValues : image.toList.map BitVec.toNat = c.romImage.map BitVec.toNat)
    (hEntries : table.map suppliedEntry = c.rangeTable) (hWf : rangeTableWF c.rangeTable = true) :
    configure c image table = .next (State.initial c) := by
  obtain ⟨hWide, -⟩ | ⟨-, hIll, -⟩ | ⟨-, -, hNext⟩ := configure_cases c image table
  · exact absurd (fits_of_map_toNat_eq hValues) (not_fits_of_wide hWide)
  · rw [hEntries, hWf] at hIll
    exact absurd hIll nofun
  · rw [hNext, map_ofContainer_eq_of_map_toNat_eq hValues, hEntries]

/-! ### The obligations -/

/-- Settles O32: each step delivers `answer` of the request, which the common configuration fixes. -/
theorem resultsDependOnPortAndAddressOnly : Obligations.ResultsDependOnPortAndAddressOnly := by
  intro s t agent agent' p bits rest rest' hCfg hPendingS hPendingT
  have hStepT := step_of_presented_onPort hPendingT rfl
  rw [← hCfg] at hStepT
  exact ⟨_, _, ⟨p, portAddress s.cfg.addrWidth bits⟩, answer s.cfg _,
    step_of_presented_onPort hPendingS rfl, hStepT, rfl, rfl⟩

/-- Settles O4: this hardware's range table passes its check. -/
theorem configureBuildsTheResetMachine : Obligations.ConfigureBuildsTheResetMachine := by
  intro image table hValues hEntries
  exact configure_own_tables hValues hEntries (by decide)

end Sys2Proof.Machine
